-- ==== Sys2Proof/Word.lean ====
section
/-! DEFINITION. The one word of the machine: the byte (spec/00_scope.md R5, R6: XLEN = 8, all values unsigned). -/

namespace Sys2Proof

/-- A byte, `0..255`, unsigned: a register, a memory cell, an address, an opcode, an operand (R5, R6). -/
abbrev Byte := BitVec 8

end Sys2Proof
end

