-- ==== Sys2Proof/Syntax.lean ====
section
/-! DEFINITION. The instruction set of CSE1: the 14 mnemonics of the instruction table and the decoded instructions with
their operand bytes (spec/30_encoding.md R70 to R75, R82; spec/opcode_table.json). -/

namespace Sys2Proof

/-- The vocabulary of the instruction table, in the order of 30_encoding.md R74. -/
inductive Mnemonic where
  | lda | ldb | add | sub | outv | sta | ldm | jez | jnz | mul | div | inp | ld | hlt
deriving DecidableEq, Repr

/-- One decoded instruction, one constructor for each row of spec/opcode_table.json. Every operand is one whole byte used
as it stands, and any byte is legal (R75): `imm` a literal, `addr` a memory address or jump target, `sel` the register
selector of `LD`. -/
inductive Instr where
  /-- `LDA imm`: load the literal into A (41_load_immediate.md R120). -/
  | lda (imm : Byte)
  /-- `LDB imm`: load the literal into B (R121). -/
  | ldb (imm : Byte)
  /-- `ADD`: add B to A (42_arithmetic.md R130). -/
  | add
  /-- `SUB`: subtract B from A (R131). -/
  | sub
  /-- `OUTV addr`: emit the byte at `addr` (44_io.md R170). -/
  | outv (addr : Byte)
  /-- `STA addr`: store A (43_memory_access.md R150). -/
  | sta (addr : Byte)
  /-- `LDM addr`: load A from memory (R151). -/
  | ldm (addr : Byte)
  /-- `JEZ addr`: jump if the zero flag is set (45_control.md R180). -/
  | jez (addr : Byte)
  /-- `JNZ addr`: jump if the zero flag is clear (R181). -/
  | jnz (addr : Byte)
  /-- `MUL`: multiply A by B (R132). -/
  | mul
  /-- `DIV`: divide A by B (R133). -/
  | div
  /-- `INP addr`: read one input value into memory (R171, R172). -/
  | inp (addr : Byte)
  /-- `LD sel addr`: load the selected register from memory (R152). -/
  | ld (sel addr : Byte)
  /-- `HLT`: halt (R182). -/
  | hlt
deriving DecidableEq, Repr

end Sys2Proof
end

