-- ==== Sys2Proof/Config.lean ====
section
/-! DEFINITION. What is fixed for the machine (spec/00_scope.md R5). Parameters the spec leaves OPEN are arguments where
they matter: PROG_SIZE of `loadImage` (as a `ProgSize`), the host integer bound of `assemble`, the opcode map of `decodeWith`,
`encodeWith` and `assembleWith`. The opcode map of decision D3 stands in Decode.lean and ZERO_FROM_TRUNCATED in
Machine/Flags.lean, beside the functions that use them. -/

namespace Sys2Proof

/-- MEM_SIZE, the number of byte cells (10_state.md R16; 92_eei_decisions.md D1; UNVERIFIED, log 4). -/
def Config.memSize : Nat := 256

/-- RESET_MEM, what a byte nobody has written reads as (10_state.md R23; decision D4; UNVERIFIED, log 3). -/
def Config.resetMem : Byte := 0

/-- PROG_SIZE is OPEN with `1 <= PROG_SIZE <= MEM_SIZE` (00_scope.md R5, decision D2): a number with its bounds. -/
structure Config.ProgSize where
  /-- Bytes in the program region: the longest image the load accepts. -/
  size : Nat
  pos : 1 ≤ size
  le_mem : size ≤ Config.memSize

end Sys2Proof
end

