-- ==== Sys2Proof/Decode.lean ====
section
/-! DEFINITION. The opcode map, the decoder (total on any bytes, rejecting by name) and the encoder of single instructions
(spec/30_encoding.md R70 to R79). Decoder and encoder take the opcode map as an argument (R74: "a model takes the whole map as
the parameter OPC"); `decode` and `encode` are theirs at the map of R74. -/

namespace Sys2Proof

/-- Every mnemonic of the instruction table, in its order (R74). -/
def Mnemonic.all : List Mnemonic :=
  [.lda, .ldb, .add, .sub, .outv, .sta, .ldm, .jez, .jnz, .mul, .div, .inp, .ld, .hlt]

/-- OPC, the opcode byte of each mnemonic (R74). LDA, LDB, ADD and HLT are the source's; the other ten are the spec's
decision D3 (UNVERIFIED, log 1). -/
def opcodeOf : Mnemonic → Byte
  | .lda => 0x01
  | .ldb => 0x02
  | .add => 0x03
  | .sub => 0x04
  | .outv => 0x05
  | .sta => 0x06
  | .ldm => 0x07
  | .jez => 0x08
  | .jnz => 0x09
  | .mul => 0x0A
  | .div => 0x0B
  | .inp => 0x0C
  | .ld => 0x0D
  | .hlt => 0xFF

/-- How many operand bytes the core consumes after the opcode (R74, column "operand bytes"). -/
def operandCount : Mnemonic → Nat
  | .lda => 1
  | .ldb => 1
  | .add => 0
  | .sub => 0
  | .outv => 1
  | .sta => 1
  | .ldm => 1
  | .jez => 1
  | .jnz => 1
  | .mul => 0
  | .div => 0
  | .inp => 1
  | .ld => 2
  | .hlt => 0

/-- The mnemonic of an instruction. -/
def mnemonicOf : Instr → Mnemonic
  | .lda _ => .lda
  | .ldb _ => .ldb
  | .add => .add
  | .sub => .sub
  | .outv _ => .outv
  | .sta _ => .sta
  | .ldm _ => .ldm
  | .jez _ => .jez
  | .jnz _ => .jnz
  | .mul => .mul
  | .div => .div
  | .inp _ => .inp
  | .ld _ _ => .ld
  | .hlt => .hlt

/-- The operand bytes of an instruction, in ascending address order (R71 to R73; for `LD` the selector first). -/
def operandsOf : Instr → List Byte
  | .lda imm => [imm]
  | .ldb imm => [imm]
  | .add => []
  | .sub => []
  | .outv addr => [addr]
  | .sta addr => [addr]
  | .ldm addr => [addr]
  | .jez addr => [addr]
  | .jnz addr => [addr]
  | .mul => []
  | .div => []
  | .inp addr => [addr]
  | .ld sel addr => [sel, addr]
  | .hlt => []

/-- The length of an instruction in bytes, 1, 2 or 3 (R70): the opcode byte and the operand bytes. -/
def lengthOf (i : Instr) : Nat := 1 + operandCount (mnemonicOf i)

/-- The longest instruction (`LD`, format F2, R73). -/
def maxLength : Nat := 3

/-- Why bytes are no instruction. -/
inductive DecodeError where
  /-- There is no byte at all. -/
  | noBytes
  /-- The first byte is none of the opcodes (R78). -/
  | illegalOpcode (op : Byte)
  /-- The bytes end before the operands of `m`; never in memory, where every address is a cell. -/
  | missingOperand (m : Mnemonic)
deriving DecidableEq, Repr

/-- What decoding a list of bytes gives: an instruction and the bytes after it, or a rejection by name. -/
inductive Decoded where
  | ok (i : Instr) (rest : List Byte)
  | bad (e : DecodeError)
deriving DecidableEq, Repr

/-- Decode is by the whole opcode byte (R76): the mnemonic whose opcode it is. -/
def mnemonicWith (opc : Mnemonic → Byte) (op : Byte) : Option Mnemonic :=
  Mnemonic.all.find? fun m => opc m == op

/-- Format F1: one operand byte (R72). -/
def takeOne (m : Mnemonic) (f : Byte → Instr) : List Byte → Decoded
  | x :: rest => .ok (f x) rest
  | [] => .bad (.missingOperand m)

/-- Format F2: two operand bytes, the first at the lower address (R73). -/
def takeTwo (m : Mnemonic) (f : Byte → Byte → Instr) : List Byte → Decoded
  | x :: y :: rest => .ok (f x y) rest
  | [_] => .bad (.missingOperand m)
  | [] => .bad (.missingOperand m)

/-- Takes the operand bytes that `m` consumes, whatever their values (R75, 40_tick_and_dispatch.md R102, R103). -/
def takeOperands (m : Mnemonic) (bs : List Byte) : Decoded :=
  match m with
  | .lda => takeOne .lda .lda bs
  | .ldb => takeOne .ldb .ldb bs
  | .add => .ok .add bs
  | .sub => .ok .sub bs
  | .outv => takeOne .outv .outv bs
  | .sta => takeOne .sta .sta bs
  | .ldm => takeOne .ldm .ldm bs
  | .jez => takeOne .jez .jez bs
  | .jnz => takeOne .jnz .jnz bs
  | .mul => .ok .mul bs
  | .div => .ok .div bs
  | .inp => takeOne .inp .inp bs
  | .ld => takeTwo .ld .ld bs
  | .hlt => .ok .hlt bs

/-- Decodes the instruction at the front of `bytes` under the opcode map `opc` (R70, R76, R78). -/
def decodeWith (opc : Mnemonic → Byte) : List Byte → Decoded
  | [] => .bad .noBytes
  | op :: rest =>
    match mnemonicWith opc op with
    | some m => takeOperands m rest
    | none => .bad (.illegalOpcode op)

/-- The decoder of the machine: `decodeWith` at the opcode map of R74. -/
def decode (bytes : List Byte) : Decoded := decodeWith opcodeOf bytes

/-- The bytes of an instruction under the opcode map `opc`: the opcode, then the operands (R70 to R73). -/
def encodeWith (opc : Mnemonic → Byte) (i : Instr) : List Byte := opc (mnemonicOf i) :: operandsOf i

/-- The encoder of single instructions: `encodeWith` at the opcode map of R74. -/
def encode (i : Instr) : List Byte := encodeWith opcodeOf i

/-- Byte `k` of an instruction whose bits are `w`, bit 0 the least significant bit of its first byte. -/
def tableByte (w k : Nat) : Byte := BitVec.ofNat 8 (w >>> (8 * k))

/-- The bytes of an instruction of `nbits` bits `w`, at ascending addresses, every bit above `nbits` zero, up to the longest
instruction. -/
def tableBytes (nbits w : Nat) : List Byte :=
  (List.range maxLength).map (tableByte (w % 2 ^ nbits))

/-- The instruction the decoder reads from an instruction of `nbits` bits `w`, numbered as spec/opcode_table.json numbers
them. -/
def decodeTableWord (nbits w : Nat) : Option Instr :=
  match decode (tableBytes nbits w) with
  | .ok i _ => some i
  | .bad _ => none

end Sys2Proof
end

