-- ==== Sys2Proof/WellFormed.lean ====
section
/-! DEFINITION. The well-formedness checks of the instruction set's data. Every `Instr` is well formed, because every operand is
one byte and any byte is a legal operand (spec/30_encoding.md R75); what can be ill formed is an opcode map (R74), a value
for PROG_SIZE (spec/00_scope.md R5), a count of operand tokens (R287) and a list of bytes meant to be one instruction. -/

namespace Sys2Proof

/-- An instruction as syntax is well formed when its operand bytes are as many as the core consumes (R74). -/
def Instr.wf (i : Instr) : Bool := (operandsOf i).length == operandCount (mnemonicOf i)

/-- R74: an opcode map is "constrained to be injective and to agree with the four source values". -/
def opcodeMapWf (opc : Mnemonic → Byte) : Bool :=
  (Mnemonic.all.map opc).Nodup && opc .lda == 0x01 && opc .ldb == 0x02 && opc .add == 0x03 && opc .hlt == 0xFF

/-- R5: `1 <= PROG_SIZE <= MEM_SIZE`. -/
def progSizeWf (n : Nat) : Bool := 1 ≤ n && n ≤ Config.memSize

/-- The arity contract of 70_reset_and_hazards.md R287: as many operand tokens as the core consumes. Nothing checks it
(50_assembler.md R215); it is the programmer's. -/
def arityOk (m : Mnemonic) (operands : Nat) : Bool := operands == operandCount m

/-- Bytes that are exactly one instruction: they decode with nothing left over. -/
def isInstrBytes (bytes : List Byte) : Bool :=
  match decode bytes with
  | .ok _ rest => rest.isEmpty
  | .bad _ => false

end Sys2Proof
end

