-- ==== Sys2Proof/Machine/State.lean ====
section
/-! DEFINITION. The machine's state as plain data, its faults and refusals, and the state right after reset
(spec/10_state.md; spec/70_reset_and_hazards.md R280 to R284). -/

namespace Sys2Proof.Machine

/-- MEM as a list of (address, byte) cells in one canonical form: addresses strictly rising and below MEM_SIZE, no cell equal
to what an unlisted address reads as (10_state.md R16; `Memory.wf` in Ops.lean says the form). -/
abbrev Memory := List Host.Cell

/-- What FAULT can hold besides none (10_state.md R18). -/
inductive FaultReason where
  /-- The byte `op`, fetched as an opcode at `addr`, is none of the 14 opcodes (30_encoding.md R78). -/
  | illegalOpcode (op addr : Byte)
deriving DecidableEq, Repr

/-- The events of the diagnostic stream (10_state.md R20). -/
inductive DiagEvent where
  /-- `LD` met a selector other than 1 and 2 (43_memory_access.md R152). -/
  | badRegisterSelector (sel : Byte)
deriving DecidableEq, Repr

/-- What the LOAD port has done in this run (70_reset_and_hazards.md R281, R282). -/
inductive LoadState where
  /-- No image has been presented yet. -/
  | notLoaded
  /-- An image was copied into memory. -/
  | loaded
  /-- The image was longer than the program region: "loading fails and no execution occurs". -/
  | refused
deriving DecidableEq, Repr

/-- The whole state of a run: the CPU State of the source (registers, memory, RUNNING), FAULT, the host's streams and the
result of the load. -/
structure State where
  /-- General register A, `x[1]` (10_state.md R10). -/
  a : Byte
  /-- General register B, `x[2]` (R10). -/
  b : Byte
  /-- The program counter, the address of the next opcode byte (R12). -/
  pc : Byte
  /-- FLAGS: bit 0 INV, bit 1 Z, bit 2 C, bit 3 DZ, bits 7 to 4 unused (R13 to R15). -/
  flags : Byte
  /-- MEM, 256 byte cells (R16). -/
  mem : Memory
  /-- RUNNING (R17). -/
  running : Bool
  /-- FAULT (R18). -/
  fault : Option FaultReason
  /-- In: the input values not yet taken, the next one first (R20). -/
  input : List Byte
  /-- The position in In: how many values have been taken (R20). -/
  inPos : Nat
  /-- Out: the bytes emitted, oldest first (R20). -/
  out : List Byte
  /-- Diag: the events reported, oldest first (R20). -/
  diag : List DiagEvent
  /-- What the load did (70_reset_and_hazards.md R281). -/
  loaded : LoadState
deriving DecidableEq, Repr

/-- The reasons a step stops. -/
inductive Fault where
  /-- Raised by the tick (Machine/Tick.lean) when the opcode fetch at `addr` returns `op`, a byte outside the instruction table,
  and by every later step from the state it leaves (30_encoding.md R78, 60_exceptions.md R256). `left` is the state the fault
  leaves: FAULT set, `pc` past the byte, nothing else changed, RUNNING still true. Safe: the hardware may go on where
  the model stops (decision D5, log 6). -/
  | illegalOpcode (op addr : Byte) (left : State)
deriving DecidableEq, Repr

/-- The reasons a step has no meaning. No instruction of this model is refused. -/
inductive Refusal where
  /-- Raised by an arm of `exec` whose instruction has no meaning yet: safe, the model stops where the hardware goes on. No arm
  of this model raises it. -/
  | notModelled (mnemonic : String)
deriving DecidableEq, Repr

/-- A fresh CPU State with the reset values RESET_A, RESET_B, RESET_FLAGS and RESET_MEM as arguments (10_state.md R23), before
any load: RUNNING is false until a load succeeds (70_reset_and_hazards.md R281). -/
def State.resetWith (a b flags : Byte) (mem : Memory) : State where
  a := a
  b := b
  pc := 0
  flags := flags
  mem := mem
  running := false
  fault := none
  input := []
  inPos := 0
  out := []
  diag := []
  loaded := .notLoaded

/-- The machine right after reset: the values of 10_state.md R23 (0 for the registers, the flags and all memory: the spec's
decision D4, logs 2 and 3). -/
def State.reset : State := State.resetWith 0 0 0 []

end Sys2Proof.Machine
end

