-- ==== Sys2Proof/Machine/Ops.lean ====
section
/-! DEFINITION. The named operations over memory, registers, the program counter, the streams and the run state, and the one
operation that raises a fault (spec/00_scope.md R7; spec/60_exceptions.md R256). There is no trap entry and no trap
return to model (R257, R258). -/

namespace Sys2Proof.Machine

/-- MEM[addr]: the byte last written there, else what an unlisted address reads as (20_memory.md R46; RESET_MEM, log 3). -/
def Memory.read (m : Memory) (addr : Byte) : Byte :=
  match m with
  | [] => Config.resetMem
  | (k, v) :: rest => if k = addr.toNat then v else Memory.read rest addr

/-- The cell that lists `v` at `addr`, or no cell when an unlisted address reads as `v` anyway. -/
def cellFor (addr v : Byte) : Memory := if v = Config.resetMem then [] else [(addr.toNat, v)]

/-- MEM[addr] <- v, keeping the canonical form (00_scope.md R7). -/
def Memory.write (m : Memory) (addr v : Byte) : Memory :=
  match m with
  | [] => cellFor addr v
  | (k, w) :: rest =>
    if addr.toNat < k then cellFor addr v ++ (k, w) :: rest
    else if k = addr.toNat then cellFor addr v ++ rest
    else (k, w) :: Memory.write rest addr v

/-- Writes bytes at ascending addresses from `addr`, wrapping at the top (20_memory.md R43, R45). -/
def Memory.writeMany (m : Memory) (addr : Byte) : List Byte → Memory
  | [] => m
  | v :: rest => Memory.writeMany (m.write addr v) (addr + 1) rest

/-- The canonical form from address `lo` on. -/
def Memory.wfFrom (lo : Nat) : Memory → Bool
  | [] => true
  | (k, v) :: rest =>
    decide (lo ≤ k) && decide (k < Config.memSize) && v != Config.resetMem && Memory.wfFrom (k + 1) rest

/-- Memory is in its canonical form: addresses strictly rising and below MEM_SIZE, no cell equal to an unlisted one. -/
def Memory.wf (m : Memory) : Bool := m.wfFrom 0

/-- The two general registers (10_state.md R10). -/
inductive Reg where
  | a | b
deriving DecidableEq, Repr

/-- Reads a general register. -/
def readReg (s : State) : Reg → Byte
  | .a => s.a
  | .b => s.b

/-- Writes a general register, and nothing else. -/
def writeReg (s : State) (r : Reg) (v : Byte) : State :=
  match r with
  | .a => { s with a := v }
  | .b => { s with b := v }

/-- `MemRead(addr, 1)`, without side effect (00_scope.md R7, 20_memory.md R46). -/
def readMem (s : State) (addr : Byte) : Byte := s.mem.read addr

/-- `MemWrite(addr, 1, v)` (00_scope.md R7). -/
def writeMem (s : State) (addr v : Byte) : State := { s with mem := s.mem.write addr v }

/-- `fetch()`: the byte at `pc`, and `pc` advanced by one modulo 256 (40_tick_and_dispatch.md R101). -/
def fetch (s : State) : Byte × State := (readMem s s.pc, { s with pc := s.pc + 1 })

/-- `n` fetches one after another: the bytes in ascending address order and the state after them (R101, R102). -/
def fetchMany : Nat → State → List Byte × State
  | 0, s => ([], s)
  | n + 1, s => ((fetch s).1 :: (fetchMany n (fetch s).2).1, (fetchMany n (fetch s).2).2)

/-- The state in which an instruction's effect runs: `pc` already past its `n` bytes, modulo 256 (10_state.md R12, R102). -/
def advance (n : Nat) (s : State) : State := { s with pc := s.pc + BitVec.ofNat 8 n }

/-- `pc <- target` (45_control.md R183). -/
def jump (s : State) (target : Byte) : State := { s with pc := target }

/-- `In.pop()`: the head of In and the state without it, or none while In is empty (00_scope.md R7, 44_io.md R171). -/
def popInput (s : State) : Option (Byte × State) :=
  match s.input with
  | [] => none
  | v :: rest => some (v, { s with input := rest, inPos := s.inPos + 1 })

/-- `Out.push(v)` (00_scope.md R7). -/
def pushOut (s : State) (v : Byte) : State := { s with out := s.out ++ [v] }

/-- `Diag.push(e)` (00_scope.md R7). -/
def pushDiag (s : State) (e : DiagEvent) : State := { s with diag := s.diag ++ [e] }

/-- `RUNNING <- false` (45_control.md R182). -/
def stopRunning (s : State) : State := { s with running := false }

/-- The state an illegal opcode `op` at `pc` leaves: FAULT set, `pc` past the byte, nothing else changed (30_encoding.md R78). -/
def faultedBy (s : State) (op : Byte) : State :=
  { s with pc := s.pc + 1, fault := some (.illegalOpcode op s.pc) }

/-- `raise Fault(IllegalOpcode(op, a))` for the byte `op` fetched at `pc` (00_scope.md R7, 60_exceptions.md R256). -/
def raiseIllegalOpcode (s : State) (op : Byte) : Host.Outcome State Fault Refusal :=
  .fault (.illegalOpcode op s.pc (faultedBy s op))

end Sys2Proof.Machine
end

