-- ==== Sys2Proof/Machine/Operands.lean ====
section
/-! DEFINITION. The operand forms: the literal byte, the absolute address with its check, the register selector of `LD`
(spec/30_encoding.md R75; spec/43_memory_access.md R152 to R154). A literal is the operand byte itself and needs no function. -/

namespace Sys2Proof.Machine

/-- The one addressing mode, absolute: the effective address is the operand byte (43_memory_access.md R154). -/
def effectiveAddress (operand : Byte) : Byte := operand

/-- The address check of `STA` and `LDM`, `addr < MEM_SIZE` (20_memory.md R47, 43_memory_access.md R153; decision D9, log 10). -/
def addressCheck (addr : Byte) : Bool := decide (addr.toNat < Config.memSize)

/-- The register that `sel` selects: 1 is A, 2 is B, any other value none (R152). -/
def selectedReg (sel : Byte) : Option Reg :=
  if sel = 1 then some .a else if sel = 2 then some .b else none

end Sys2Proof.Machine
end

