-- ==== Sys2Proof/Machine/Flags.lean ====
section
/-! DEFINITION. The flags byte: its four bits, reading and writing one of them, and the flag rules of the arithmetic family
(spec/10_state.md R13 to R15; spec/42_arithmetic.md R134 to R137). -/

namespace Sys2Proof.Machine

/-- The four defined bits of FLAGS (10_state.md R14). -/
inductive Flag where
  /-- Bit 0, "invalid memory address encountered". -/
  | inv
  /-- Bit 1, "last arithmetic result was zero". -/
  | z
  /-- Bit 2, "unsigned overflow/underflow (carry/borrow) from the last ADD/SUB/MUL". -/
  | c
  /-- Bit 3, "divide-by-zero attempted on the last DIV". -/
  | dz
deriving DecidableEq, Repr

/-- The number of a flag's bit (R14). -/
def flagBit : Flag → Nat
  | .inv => 0
  | .z => 1
  | .c => 2
  | .dz => 3

/-- `FLAGS[k]`, bit 0 the least significant (00_scope.md R6). -/
def flagAt (f : Byte) (k : Nat) : Bool := f.getLsbD k

/-- A flag, read by its name. -/
def getFlag (f : Byte) (fl : Flag) : Bool := flagAt f (flagBit fl)

/-- `FLAGS[i] <- v`: writes bit `i` only and leaves the other seven as they were (00_scope.md R7). -/
def setFlag (f : Byte) (fl : Flag) (v : Bool) : Byte :=
  if v then f ||| BitVec.ofNat 8 (2 ^ flagBit fl) else f &&& ~~~ BitVec.ofNat 8 (2 ^ flagBit fl)

/-- ZERO_FROM_TRUNCATED: whether Z tests the 8-bit result (00_scope.md R5; decision D6, UNVERIFIED, log 7). -/
def zeroFromTruncated : Bool := true

/-- The 8-bit result: the unbounded result modulo 256 (42_arithmetic.md R134). -/
def byteResult (raw : Int) : Byte := BitVec.ofInt 8 raw

/-- The zero flag of an unbounded result: of the 8-bit value written when `truncated`, of the unbounded one otherwise (R135). -/
def zeroRule (truncated : Bool) (raw : Int) : Bool :=
  if truncated then decide (byteResult raw = 0) else decide (raw = 0)

/-- The carry-style flag: the unbounded result is outside `0..255` (R136). -/
def carryRule (raw : Int) : Bool := decide (raw < 0 ∨ 255 < raw)

/-- FLAGS after `ADD`, `SUB` or `MUL` with unbounded result `raw`: Z and C recomputed, the other six bits kept (R135 to R137). -/
def arithFlags (f : Byte) (raw : Int) : Byte :=
  setFlag (setFlag f .z (zeroRule zeroFromTruncated raw)) .c (carryRule raw)

/-- What `ADD`, `SUB` and `MUL` share: A gets the unbounded result modulo 256, Z and C are recomputed (R134 to R137). -/
def arith (s : State) (raw : Int) : State :=
  { s with a := byteResult raw, flags := arithFlags s.flags raw }

/-- Writes one bit of FLAGS of a state. -/
def writeFlag (s : State) (fl : Flag) (v : Bool) : State := { s with flags := setFlag s.flags fl v }

end Sys2Proof.Machine
end

