-- ==== Sys2Proof/Machine/Arithmetic.lean ====
section
/-! DEFINITION. The arithmetic instructions ADD, SUB, MUL and DIV (spec/42_arithmetic.md R130 to R137). -/

namespace Sys2Proof.Machine

/-- `ADD`: A <- (A + B) mod 256, Z and C recomputed (R130). -/
def execAdd (s : State) : Host.Outcome State Fault Refusal :=
  .next (arith (advance 1 s) ((s.a.toNat : Int) + (s.b.toNat : Int)))

/-- `SUB`: A <- (A - B) mod 256, Z recomputed, C the borrow (R131). -/
def execSub (s : State) : Host.Outcome State Fault Refusal :=
  .next (arith (advance 1 s) ((s.a.toNat : Int) - (s.b.toNat : Int)))

/-- `MUL`: A <- the low byte of A * B, Z and C recomputed (R132). -/
def execMul (s : State) : Host.Outcome State Fault Refusal :=
  .next (arith (advance 1 s) ((s.a.toNat : Int) * (s.b.toNat : Int)))

/-- `DIV`: with B = 0, DZ is set and A kept; else A <- A div B and DZ is cleared. No other flag is written (R133, R137; decision
D7, log 8). -/
def execDiv (s : State) : Host.Outcome State Fault Refusal :=
  if s.b = 0 then .next (writeFlag (advance 1 s) .dz true)
  else .next (writeFlag (writeReg (advance 1 s) .a (BitVec.ofNat 8 (s.a.toNat / s.b.toNat))) .dz false)

end Sys2Proof.Machine
end

