-- ==== Sys2Proof/Machine/Control.lean ====
section
/-! DEFINITION. The control instructions JEZ, JNZ and HLT (spec/45_control.md R180 to R184). -/

namespace Sys2Proof.Machine

/-- What the two jumps share: taken, `pc` is the operand byte; not taken, it is past the instruction (R183, R184). -/
def jumpIf (taken : Bool) (addr : Byte) (s : State) : State :=
  if taken then jump (advance 2 s) (effectiveAddress addr) else advance 2 s

/-- `JEZ addr`: jump if the zero flag is set (R180). -/
def execJez (addr : Byte) (s : State) : Host.Outcome State Fault Refusal :=
  .next (jumpIf (getFlag s.flags .z) addr s)

/-- `JNZ addr`: jump if the zero flag is clear (R181). -/
def execJnz (addr : Byte) (s : State) : Host.Outcome State Fault Refusal :=
  .next (jumpIf (!getFlag s.flags .z) addr s)

/-- `HLT`: RUNNING <- false (R182). -/
def execHlt (s : State) : Host.Outcome State Fault Refusal :=
  .next (stopRunning (advance 1 s))

end Sys2Proof.Machine
end

