-- ==== Sys2Proof/Machine/InputOutput.lean ====
section
/-! DEFINITION. The input and output instructions OUTV and INP (spec/44_io.md R170 to R173). -/

namespace Sys2Proof.Machine

/-- `OUTV addr`: the byte at `addr` is appended to Out (R170). -/
def execOutv (addr : Byte) (s : State) : Host.Outcome State Fault Refusal :=
  .next (pushOut (advance 2 s) (readMem s (effectiveAddress addr)))

/-- The instruction requires an input value that In does not have: `INP` while In is empty, no other instruction (R171, R172). Its
tick is then not enabled and holds (Machine/Tick.lean). -/
def waitsForInput (i : Instr) (s : State) : Bool :=
  match i with
  | .inp _ => s.input.isEmpty
  | .lda _ => false
  | .ldb _ => false
  | .add => false
  | .sub => false
  | .outv _ => false
  | .sta _ => false
  | .ldm _ => false
  | .jez _ => false
  | .jnz _ => false
  | .mul => false
  | .div => false
  | .ld _ _ => false
  | .hlt => false

/-- `INP addr`: the head of In is taken and stored at `addr` (R171). While In is empty the tick holds and does not execute it
(R172); the meaning by itself then leaves the state it was given, `pc` still at the opcode (the interface of `exec` has no hold:
DESIGN CHOICE, log 12). -/
def execInp (addr : Byte) (s : State) : Host.Outcome State Fault Refusal :=
  match popInput (advance 2 s) with
  | some (v, s') => .next (writeMem s' (effectiveAddress addr) v)
  | none => .next s

end Sys2Proof.Machine
end

