-- ==== Sys2Proof/Machine/LoadImmediate.lean ====
section
/-! DEFINITION. The load-immediate instructions LDA and LDB (spec/41_load_immediate.md R120, R121). Every meaning of the model takes
the state with `pc` at the instruction's opcode byte and first moves `pc` past its bytes (spec/40_tick_and_dispatch.md R102). -/

namespace Sys2Proof.Machine

/-- `LDA imm`: A <- imm; no flag is written (R120; decision D8, log 9). -/
def execLda (imm : Byte) (s : State) : Host.Outcome State Fault Refusal :=
  .next (writeReg (advance 2 s) .a imm)

/-- `LDB imm`: B <- imm; no flag is written (R121; decision D8, log 9). -/
def execLdb (imm : Byte) (s : State) : Host.Outcome State Fault Refusal :=
  .next (writeReg (advance 2 s) .b imm)

end Sys2Proof.Machine
end

