-- ==== Sys2Proof/Machine/MemoryAccess.lean ====
section
/-! DEFINITION. The memory access instructions STA, LDM and LD (spec/43_memory_access.md R150 to R154). -/

namespace Sys2Proof.Machine

/-- `STA addr`: MEM[addr] <- A. The arm in which the address check fails sets INV as R150 writes it and is never reached
(R153; decision D9, log 10). -/
def execSta (addr : Byte) (s : State) : Host.Outcome State Fault Refusal :=
  if addressCheck (effectiveAddress addr) then .next (writeMem (advance 2 s) (effectiveAddress addr) s.a)
  else .next (writeFlag (advance 2 s) .inv true)

/-- `LDM addr`: A <- MEM[addr], no flag written; the failing arm of the address check as in `STA` (R151, R153; decisions D8, D9,
logs 9, 10). -/
def execLdm (addr : Byte) (s : State) : Host.Outcome State Fault Refusal :=
  if addressCheck (effectiveAddress addr) then .next (writeReg (advance 2 s) .a (readMem s (effectiveAddress addr)))
  else .next (writeFlag (advance 2 s) .inv true)

/-- `LD sel addr`: the selected register <- MEM[addr]; a selector other than 1 and 2 is reported on Diag and nothing else
happens. Both operand bytes are consumed in every case (R152, 60_exceptions.md R255; decision D14, log 13). -/
def execLd (sel addr : Byte) (s : State) : Host.Outcome State Fault Refusal :=
  match selectedReg sel with
  | some r => .next (writeReg (advance 3 s) r (readMem s (effectiveAddress addr)))
  | none => .next (pushDiag (advance 3 s) (.badRegisterSelector sel))

end Sys2Proof.Machine
end

