-- ==== Sys2Proof/Machine/Dispatch.lean ====
section
/-! DEFINITION. Dispatch: one arm per instruction (spec/40_tick_and_dispatch.md R103). -/

namespace Sys2Proof.Machine

def exec (i : Instr) (s : State) : Host.Outcome State Fault Refusal :=
  match i with
  | .lda imm => Sys2Proof.Machine.execLda imm s
  | .ldb imm => Sys2Proof.Machine.execLdb imm s
  | .add => Sys2Proof.Machine.execAdd s
  | .sub => Sys2Proof.Machine.execSub s
  | .outv addr => Sys2Proof.Machine.execOutv addr s
  | .sta addr => Sys2Proof.Machine.execSta addr s
  | .ldm addr => Sys2Proof.Machine.execLdm addr s
  | .jez addr => Sys2Proof.Machine.execJez addr s
  | .jnz addr => Sys2Proof.Machine.execJnz addr s
  | .mul => Sys2Proof.Machine.execMul s
  | .div => Sys2Proof.Machine.execDiv s
  | .inp addr => Sys2Proof.Machine.execInp addr s
  | .ld sel addr => Sys2Proof.Machine.execLd sel addr s
  | .hlt => Sys2Proof.Machine.execHlt s

end Sys2Proof.Machine
end

