-- ==== Sys2Proof/Machine/Tick.lean ====
section
/-! DEFINITION. The tick: fetch, decode, dispatch, its outcomes, and when a tick is enabled (spec/40_tick_and_dispatch.md R100 to
R106; spec/00_scope.md R8). The opcode map is an argument (spec/30_encoding.md R74); the machine's own is `opcodeOf`. -/

namespace Sys2Proof.Machine

/-- The bytes the longest instruction at `pc` would take, in fetch order (R101, R102; 20_memory.md R45). Reading bytes that the
instruction does not consume has no effect (20_memory.md R46; DEDUCED, log 25). -/
def codeWindow (s : State) : List Byte := (fetchMany maxLength s).1

/-- Decodes the instruction at `pc` from memory as it stands (30_encoding.md R77, 20_memory.md R51). -/
def fetchDecode (opc : Mnemonic → Byte) (s : State) : Decoded := decodeWith opc (codeWindow s)

/-- The outcomes of a tick (00_scope.md R8): a next state, a hold or a fault. -/
inductive TickOutcome where
  /-- The tick was made, and this is the next state. -/
  | next (t : State)
  /-- The tick is not enabled and the state does not change: `INP` while In is empty (44_io.md R172). -/
  | hold
  /-- The opcode byte is illegal (30_encoding.md R78). -/
  | fault (reason : Fault)
  /-- Answered for an instruction without a meaning; this model has none, so no tick answers it. -/
  | refused (why : Refusal)
deriving DecidableEq, Repr

/-- The outcome of a tick that executes something which has this outcome. -/
def madeTick (o : Host.Outcome State Fault Refusal) : TickOutcome :=
  match o with
  | .next t => .next t
  | .fault reason => .fault reason
  | .refused why => .refused why

/-- The tick of a core with RUNNING = true and FAULT = none: the instruction at `pc` is executed, an `INP` that finds In empty
holds, and a byte that is no opcode raises the fault (R100; 44_io.md R172; 30_encoding.md R78). -/
def tick (opc : Mnemonic → Byte) (s : State) : TickOutcome :=
  match fetchDecode opc s with
  | .ok i _ => if waitsForInput i s then .hold else madeTick (exec i s)
  | .bad _ => madeTick (raiseIllegalOpcode s (readMem s s.pc))

/-- A tick is enabled: RUNNING = true and FAULT = none, and for an `INP` instruction In is not empty (R100). -/
def canTick (opc : Mnemonic → Byte) (s : State) : Bool :=
  s.running && s.fault.isNone &&
    match fetchDecode opc s with
    | .ok i _ => !waitsForInput i s
    | .bad _ => true

/-- The outcome of the step from `s` whose tick has this outcome. The host's interface has no hold, so a hold shows as a next state
that is `s` itself (DESIGN CHOICE, log 12). -/
def stepOutcome (s : State) (o : TickOutcome) : Host.Outcome State Fault Refusal :=
  match o with
  | .next t => .next t
  | .hold => .next s
  | .fault reason => .fault reason
  | .refused why => .refused why

/-- A tick needs RUNNING = true and FAULT = none (R100). A core that is not running (before a load, after a refused one,
after `HLT`) keeps its state (45_control.md R182; DESIGN CHOICE, log 14); a faulted core makes no further tick and its fault
is final (60_exceptions.md R256). -/
def tickIfEnabled (opc : Mnemonic → Byte) (s : State) : Host.Outcome State Fault Refusal :=
  match s.fault with
  | some (.illegalOpcode op addr) => .fault (.illegalOpcode op addr s)
  | none => if s.running then stepOutcome s (tick opc s) else .next s

/-- The bytes of an instruction placed at `pc`, wrapping at the top. -/
def placeCode (s : State) (bytes : List Byte) : State := { s with mem := s.mem.writeMany s.pc bytes }

/-- The state of a run that a load has started and no fault has stopped: RUNNING = true, FAULT = none (70_reset_and_hazards.md R281, R284). -/
def startRunning (s : State) : State := { s with running := true, fault := none, loaded := .loaded }

end Sys2Proof.Machine
end

