-- ==== Sys2Proof/Machine/Step.lean ====
section
/-! DEFINITION. The step of the machine: its tick, a hold shown as a step (spec/40_tick_and_dispatch.md R100, R104), and the state in which
the next step runs a given instruction. -/

namespace Sys2Proof.Machine

/-- One step: `tickIfEnabled` (Machine/Tick.lean) under the opcode map of 30_encoding.md R74. -/
def step (s : State) : Host.Outcome State Fault Refusal := tickIfEnabled opcodeOf s

/-- `s` with the instruction of `nbits` bits `w` at `pc` and the run started, so that the next step runs exactly it. Before a load
no tick is enabled, so this stands for the load too (log 15). -/
def State.withFetchWord (s : State) (nbits w : Nat) : State := startRunning (placeCode s (tableBytes nbits w))

end Sys2Proof.Machine
end

