-- ==== Sys2Proof/Machine/Assembler.lean ====
section
/-! DEFINITION. The encoder: the two-pass assembler from source text to a byte image (spec/50_assembler.md R200 to R222). The source
text is a list of bytes (93_implementation_defined.md U16). The opcode map and the host's largest integer are arguments;
`assemble` takes the opcode map of 30_encoding.md R74. -/

namespace Sys2Proof.Machine

/-- A token: a maximal run of non-whitespace characters (R203). -/
abbrev Token := List Byte

/-- A line feed, which ends a line (R201). -/
def lineFeed : Byte := 0x0A

/-- The comment marker `;` (R202). -/
def commentMark : Byte := 0x3B

/-- The character `:` that ends a label definition's first token (R204). -/
def colon : Byte := 0x3A

/-- Whitespace: space, horizontal tab, carriage return, vertical tab and form feed (R203; decision D20, log 21). -/
def isSpace (c : Byte) : Bool := c == 0x20 || c == 0x09 || c == 0x0D || c == 0x0B || c == 0x0C

/-- Cuts the text into lines; a last line without a line feed is a line (R201). -/
def splitLines : List Byte → List (List Byte)
  | [] => []
  | c :: cs =>
    if c = lineFeed then [] :: splitLines cs
    else
      match splitLines cs with
      | [] => [[c]]
      | l :: ls => (c :: l) :: ls

/-- Strips everything from the first comment marker on (R202). -/
def stripComment (line : List Byte) : List Byte := line.takeWhile (· != commentMark)

/-- A finished token, unless it is empty. -/
def flushToken (cur : Token) : List Token := if cur.isEmpty then [] else [cur]

/-- Splits by whitespace, `cur` being the token read so far. -/
def tokensFrom (cur : Token) : List Byte → List Token
  | [] => flushToken cur
  | c :: cs => if isSpace c then flushToken cur ++ tokensFrom [] cs else tokensFrom (cur ++ [c]) cs

/-- The tokens of a line, left to right (R203). -/
def tokens (line : List Byte) : List Token := tokensFrom [] line

/-- The class of a line (R204). -/
inductive Line where
  /-- No tokens. -/
  | blank
  /-- A label definition: the first token without its final `:`; the rest of the line is ignored (R205, R206). -/
  | label (name : Token)
  /-- An instruction line: the first token and the others. -/
  | code (head : Token) (operands : List Token)
deriving DecidableEq, Repr

/-- The first token ends with `:` (R204). -/
def endsInColon (t : Token) : Bool := t.getLast? == some colon

/-- Classifies a line by its first token (R204, R206; decision D16, log 18). -/
def classify (line : List Byte) : Line :=
  match tokens (stripComment line) with
  | [] => .blank
  | t :: ts => if endsInColon t then .label t.dropLast else .code t ts

/-- The classified lines of a source text. -/
def parseLines (text : List Byte) : List Line := (splitLines text).map classify

/-- The symbol table: label names and the pass-1 byte counter at their lines (R205, R209). -/
abbrev Symtab := List (Token × Nat)

/-- The bytes a line contributes in pass 1: one for each token of an instruction line, known mnemonic or not (R207, R208). -/
def lineSize : Line → Nat
  | .blank => 0
  | .label _ => 0
  | .code _ operands => 1 + operands.length

/-- Pass 1 from byte counter `counter` on: the symbol table and the final counter (R207). It cannot fail. -/
def pass1From (counter : Nat) : List Line → Symtab × Nat
  | [] => ([], counter)
  | l :: ls =>
    match l with
    | .blank => pass1From counter ls
    | .label name => ((name, counter) :: (pass1From counter ls).1, (pass1From counter ls).2)
    | .code _ operands => pass1From (counter + (1 + operands.length)) ls

/-- Pass 1 (R207). -/
def pass1 (lines : List Line) : Symtab × Nat := pass1From 0 lines

/-- The value a label is bound to. -/
def lookupLabel (symtab : Symtab) (t : Token) : Option Nat := (symtab.find? fun e => e.1 == t).map (·.2)

/-- A decimal digit character and its value. -/
def digitValue (c : Byte) : Option Nat :=
  if 0x30 ≤ c.toNat ∧ c.toNat ≤ 0x39 then some (c.toNat - 0x30) else none

/-- The value of a character as a digit in a base up to 16, none if it is no digit of that base (R214). -/
def digitIn (base : Nat) (c : Byte) : Option Nat :=
  let v :=
    match digitValue c with
    | some d => some d
    | none =>
      if 0x61 ≤ c.toNat ∧ c.toNat ≤ 0x66 then some (c.toNat - 0x61 + 10)
      else if 0x41 ≤ c.toNat ∧ c.toNat ≤ 0x46 then some (c.toNat - 0x41 + 10)
      else none
  match v with
  | some d => if d < base then some d else none
  | none => none

/-- The digits of `t` in `base`, most significant first, `acc` being the value read so far; none at a character that is no digit. -/
def digitsFrom (base acc : Nat) : Token → Option Nat
  | [] => some acc
  | c :: cs =>
    match digitIn base c with
    | some d => digitsFrom base (acc * base + d) cs
    | none => none

/-- What a token is as an integer literal (R214). -/
inductive Literal where
  /-- One of the three admitted forms, with its value. -/
  | value (n : Nat)
  /-- Outside the admitted forms, yet with a valid literal at its front or after a sign: the source does not settle it (U10). -/
  | unsettled
  /-- No valid literal at its front at all. -/
  | invalid
deriving DecidableEq, Repr

/-- A value if the whole token had the form, unsettled if it only began with a literal. -/
def literalOf : Option Nat → Literal
  | some n => .value n
  | none => .unsettled

/-- A token that begins with `0`, without that `0`: hexadecimal after `x` or `X` with one or more digits, else octal (R214). -/
def zeroLiteral : Token → Literal
  | [] => .value 0
  | c :: cs =>
    if c = 0x78 ∨ c = 0x58 then
      match cs with
      | [] => .unsettled
      | d :: ds => literalOf (digitsFrom 16 0 (d :: ds))
    else literalOf (digitsFrom 8 0 (c :: cs))

/-- `+` or `-`. -/
def isSign (c : Byte) : Bool := c == 0x2B || c == 0x2D

/-- Parses a token as an integer literal (R214; decision D18, log 19). -/
def parseLiteral : Token → Literal
  | [] => .invalid
  | c :: cs =>
    match digitValue c with
    | some 0 => zeroLiteral cs
    | some d => literalOf (digitsFrom 10 d cs)
    | none =>
      match cs with
      | [] => .invalid
      | d :: _ => if isSign c && (digitValue d).isSome then .unsettled else .invalid

/-- The mnemonics as the text of the instruction table spells them, upper case (R211; decision D17, log 18). -/
def spelling : Mnemonic → Token
  | .lda => [0x4C, 0x44, 0x41]
  | .ldb => [0x4C, 0x44, 0x42]
  | .add => [0x41, 0x44, 0x44]
  | .sub => [0x53, 0x55, 0x42]
  | .outv => [0x4F, 0x55, 0x54, 0x56]
  | .sta => [0x53, 0x54, 0x41]
  | .ldm => [0x4C, 0x44, 0x4D]
  | .jez => [0x4A, 0x45, 0x5A]
  | .jnz => [0x4A, 0x4E, 0x5A]
  | .mul => [0x4D, 0x55, 0x4C]
  | .div => [0x44, 0x49, 0x56]
  | .inp => [0x49, 0x4E, 0x50]
  | .ld => [0x4C, 0x44]
  | .hlt => [0x48, 0x4C, 0x54]

/-- Mnemonic lookup, exact and case-sensitive (R211). -/
def lookupMnemonic (t : Token) : Option Mnemonic := Mnemonic.all.find? fun m => spelling m == t

/-- The two fatal errors of the encoder (R216, R217, R219). -/
inductive AsmFailure where
  | badOperand (line : Nat) (token : Token)
  | emptyOutput
deriving DecidableEq, Repr

/-- Why a text is outside the inputs the spec admits (00_scope.md R8: refused). Safe: the model answers nothing where the tool
may answer something. -/
inductive AsmRefusal where
  /-- A label is defined twice (R222; U9, log 20). -/
  | duplicateLabel
  /-- An operand token is neither an admitted literal nor settled to be none (R214; U10, log 19). -/
  | unsettledLiteral (line : Nat) (token : Token)
  /-- An operand literal is larger than the host's integer type holds (R214; U10, log 19). -/
  | literalTooLarge (line : Nat) (token : Token)
  /-- The text holds a NUL byte (U16, log 21). -/
  | nulByte
deriving DecidableEq, Repr

/-- The outcomes of an encoder run, and of a part of it (R200; 00_scope.md R8). -/
inductive AsmOutcome where
  | ok (image : List Byte)
  | fail (reason : AsmFailure)
  | refused (why : AsmRefusal)
deriving DecidableEq, Repr

/-- What one operand token becomes: a byte, or the reason it does not. -/
inductive OperandOutcome where
  | byte (v : Byte)
  | fail (reason : AsmFailure)
  | refused (why : AsmRefusal)
deriving DecidableEq, Repr

/-- One operand token on line `n`: first a label, then a literal, its low 8 bits emitted (R212 to R214, R216). -/
def resolveOperand (hostIntMax : Nat) (symtab : Symtab) (n : Nat) (t : Token) : OperandOutcome :=
  match lookupLabel symtab t with
  | some v => .byte (BitVec.ofNat 8 v)
  | none =>
    match parseLiteral t with
    | .value v => if v ≤ hostIntMax then .byte (BitVec.ofNat 8 v) else .refused (.literalTooLarge n t)
    | .unsettled => .refused (.unsettledLiteral n t)
    | .invalid => .fail (.badOperand n t)

/-- The operand tokens of line `n`, left to right, one byte each (R210, R215). The first one that gives no byte decides
(decision D21, log 22). -/
def resolveOperands (hostIntMax : Nat) (symtab : Symtab) (n : Nat) : List Token → AsmOutcome
  | [] => .ok []
  | t :: ts =>
    match resolveOperand hostIntMax symtab n t with
    | .byte v =>
      match resolveOperands hostIntMax symtab n ts with
      | .ok bs => .ok (v :: bs)
      | .fail reason => .fail reason
      | .refused why => .refused why
    | .fail reason => .fail reason
    | .refused why => .refused why

/-- What line `n` emits (R210): nothing for blank and label lines and for an unknown mnemonic, else the opcode and one byte for
each operand token, with no arity check (R211, R215). -/
def emitLine (opc : Mnemonic → Byte) (hostIntMax : Nat) (symtab : Symtab) (n : Nat) : Line → AsmOutcome
  | .blank => .ok []
  | .label _ => .ok []
  | .code head operands =>
    match lookupMnemonic head with
    | none => .ok []
    | some m =>
      match resolveOperands hostIntMax symtab n operands with
      | .ok bs => .ok (opc m :: bs)
      | .fail reason => .fail reason
      | .refused why => .refused why

/-- The bytes of all lines from line `n` on, in order (R210). -/
def emitLines (opc : Mnemonic → Byte) (hostIntMax : Nat) (symtab : Symtab) (n : Nat) : List Line → AsmOutcome
  | [] => .ok []
  | l :: ls =>
    match emitLine opc hostIntMax symtab n l with
    | .ok bs =>
      match emitLines opc hostIntMax symtab (n + 1) ls with
      | .ok rest => .ok (bs ++ rest)
      | .fail reason => .fail reason
      | .refused why => .refused why
    | .fail reason => .fail reason
    | .refused why => .refused why

/-- Pass 2: the bytes, or EmptyOutput when there are none, tested after the last line (R210, R217). -/
def pass2 (opc : Mnemonic → Byte) (hostIntMax : Nat) (symtab : Symtab) (lines : List Line) : AsmOutcome :=
  match emitLines opc hostIntMax symtab 1 lines with
  | .ok [] => .fail .emptyOutput
  | .ok (b :: bs) => .ok (b :: bs)
  | .fail reason => .fail reason
  | .refused why => .refused why

/-- No label is defined twice (R222). -/
def labelsDistinct (symtab : Symtab) : Bool := decide (symtab.map (·.1)).Nodup

/-- The encoder under an opcode map and a host integer bound (R200). -/
def assembleWith (opc : Mnemonic → Byte) (hostIntMax : Nat) (text : List Byte) : AsmOutcome :=
  if text.contains 0 then .refused .nulByte
  else if labelsDistinct (pass1 (parseLines text)).1 then
    pass2 opc hostIntMax (pass1 (parseLines text)).1 (parseLines text)
  else .refused .duplicateLabel

/-- The encoder of the machine. `hostIntMax`, the largest value the host's integer type holds, is given nowhere in the spec
(R214, U10), so it is an argument (log 19). -/
def assemble (hostIntMax : Nat) (text : List Byte) : AsmOutcome := assembleWith opcodeOf hostIntMax text

/-- The report of a successful run: the number of bytes written (R200, R218). -/
def bytesWritten : AsmOutcome → Option Nat
  | .ok image => some image.length
  | .fail _ => none
  | .refused _ => none

end Sys2Proof.Machine
end

