-- ==== Sys2Proof/Machine/Ports.lean ====
section
/-! DEFINITION. The host's five abstract ports: LOAD, IN, OUT, DIAG and STATUS (spec/70_reset_and_hazards.md R280 to R284). OUT and
DIAG are the fields `out` and `diag` of State, which the host reads. -/

namespace Sys2Proof.Machine

/-- The levels of the STATUS port (R280, R284). -/
inductive Status where
  | loadRefused | running | halted | faulted
deriving DecidableEq, Repr

/-- STATUS (R281, R284). The spec names no level before an image is presented: none (DESIGN CHOICE, log 16). -/
def statusOf (s : State) : Option Status :=
  match s.loaded with
  | .notLoaded => none
  | .refused => some .loadRefused
  | .loaded => if s.fault.isSome then some .faulted else if s.running then some .running else some .halted

/-- "Bytes are copied verbatim starting at address 0" (R281). -/
def copyImage (m : Memory) (image : List Byte) : Memory := m.writeMany 0 image

/-- The load of R281, with the length test before any byte is written. PROG_SIZE is OPEN, so it is an argument (00_scope.md R5,
log 5). The LOAD port carries one image a run, before any tick (R280): a second one is not taken (DESIGN CHOICE, log 24). -/
def loadImage (progSize : Config.ProgSize) (image : List Byte) (s : State) : Option State :=
  match s.loaded with
  | .notLoaded =>
    if progSize.size < image.length then some { s with loaded := .refused }
    else some { s with mem := copyImage s.mem image, running := true, loaded := .loaded }
  | .loaded => none
  | .refused => none

/-- The host appends an input value, at any time between ticks (R280, 44_io.md R172). -/
def appendInput (v : Byte) (s : State) : State := { s with input := s.input ++ [v] }

/-- What the host may do to the machine (R280). It may also kill the process; that has no move (decision D22, log 17). -/
inductive HostMove where
  | load (image : List Byte)
  | append (v : Byte)
deriving DecidableEq, Repr

/-- The state after a move of the host, or none where the port does not take it. -/
def hostMove (progSize : Config.ProgSize) (mv : HostMove) (s : State) : Option State :=
  match mv with
  | .load image => loadImage progSize image s
  | .append v => some (appendInput v s)

/-- The start of a run: a fresh state, then the load (R282). Nothing survives from an earlier run. -/
def startRun (progSize : Config.ProgSize) (image : List Byte) : Option State := loadImage progSize image State.reset

end Sys2Proof.Machine
end

