-- ==== Sys2Proof/Safety.lean ====
section
/-! DEFINITION. The terms the statements use: when a tick is enabled, what a state must satisfy, and what two states have in
common (spec/40_tick_and_dispatch.md R100; spec/70_reset_and_hazards.md R281, R284). -/

namespace Sys2Proof.Machine

/-- The core can make a tick (R100): `canTick` (Machine/Tick.lean) under the opcode map of 30_encoding.md R74. -/
abbrev CanTick (s : State) : Prop := canTick opcodeOf s = true

/-- RUNNING = true and FAULT = none: the run goes on, with a tick or with the hold of an `INP` (R100, 44_io.md R172). -/
abbrev Live (s : State) : Prop := s.running = true ∧ s.fault = none

/-- The address `n` bytes after `pc`, modulo 256, as a number. -/
def pcAfter (s : State) (n : Nat) : Nat := (s.pc.toNat + n) % 256

/-- The invariant of a run: memory is in its canonical form, only a loaded image runs, and only a running core faults (a fault
leaves RUNNING true, 60_exceptions.md R256). -/
structure Inv (s : State) : Prop where
  memory : s.mem.wf = true
  run : s.running = true → s.loaded = .loaded
  fault : s.fault ≠ none → s.running = true

/-- Every byte of memory reads the same. -/
abbrev SameMemory (s t : State) : Prop := ∀ x : Byte, t.mem.read x = s.mem.read x

/-- Every byte of memory outside `addr` reads the same. -/
abbrev SameMemoryBut (addr : Byte) (s t : State) : Prop := ∀ x : Byte, x ≠ addr → t.mem.read x = s.mem.read x

/-- The three streams and the position in In are the same. -/
abbrev SameStreams (s t : State) : Prop :=
  t.input = s.input ∧ t.inPos = s.inPos ∧ t.out = s.out ∧ t.diag = s.diag

/-- RUNNING, FAULT and the load's result are the same. -/
abbrev SameRunState (s t : State) : Prop := t.running = s.running ∧ t.fault = s.fault ∧ t.loaded = s.loaded

/-- Every bit of FLAGS outside the given bit numbers is the same. -/
abbrev SameFlagsBut (bits : List Nat) (s t : State) : Prop :=
  ∀ k : Nat, k ∉ bits → flagAt t.flags k = flagAt s.flags k

/-- The unbounded result of `ADD`, `SUB` and `MUL` in the state before them (42_arithmetic.md R130 to R132). -/
inductive RawResult (s : State) : Instr → Int → Prop where
  | add : RawResult s .add ((s.a.toNat : Int) + s.b.toNat)
  | sub : RawResult s .sub ((s.a.toNat : Int) - s.b.toNat)
  | mul : RawResult s .mul ((s.a.toNat : Int) * s.b.toNat)

/-- What can happen in a run: the core makes a step, or the host appends an input value (70_reset_and_hazards.md R280). -/
inductive Event where
  | tick
  | arrive (v : Byte)
deriving DecidableEq, Repr

/-- The state after a sequence of events, none when a step stops. -/
def runEvents : List Event → State → Option State
  | [], s => some s
  | .tick :: es, s =>
    match step s with
    | .next t => runEvents es t
    | .fault _ => none
    | .refused _ => none
  | .arrive v :: es, s => runEvents es (appendInput v s)

/-- The state after a sequence of ticks and arrivals in which every tick is made; none where one is not, because it is not enabled
(a hold, a core that is not running) or faults (40_tick_and_dispatch.md R100, R105). -/
def runTicks : List Event → State → Option State
  | [], s => some s
  | .tick :: es, s =>
    if canTick opcodeOf s then
      match tick opcodeOf s with
      | .next t => runTicks es t
      | .hold => none
      | .fault _ => none
      | .refused _ => none
    else none
  | .arrive v :: es, s => runTicks es (appendInput v s)

/-- The values that arrive in a sequence of events, in order. -/
def arrivals : List Event → List Byte
  | [] => []
  | .tick :: es => arrivals es
  | .arrive v :: es => v :: arrivals es

/-- How many steps a sequence of events has. -/
def tickCount : List Event → Nat
  | [] => 0
  | .tick :: es => tickCount es + 1
  | .arrive _ :: es => tickCount es

/-- The five whitespace bytes: space, horizontal tab, carriage return, vertical tab and form feed (50_assembler.md R203). -/
abbrev Whitespace (c : Byte) : Prop := c = 0x20 ∨ c = 0x09 ∨ c = 0x0D ∨ c = 0x0B ∨ c = 0x0C

/-- A non-empty run of characters that are no whitespace (R203). -/
abbrev IsWord (t : Token) : Prop := t ≠ [] ∧ ∀ c ∈ t, ¬Whitespace c

/-- The character of a hexadecimal digit: `0` to `9`, then `A` to `F` if the flag is true, else `a` to `f` (R214). -/
def hexDigit (e : Fin 16 × Bool) : Byte :=
  BitVec.ofNat 8 (if e.1.val < 10 then 0x30 + e.1.val else if e.2 then 0x41 + (e.1.val - 10) else 0x61 + (e.1.val - 10))

/-- The instruction lines, in line order, of lines that each have a known mnemonic and as many operand tokens as the core consumes
(the arity contract of 70_reset_and_hazards.md R287): the mnemonics with their operand tokens; none if a line breaks it. -/
def programOf : List Line → Option (List (Mnemonic × List Token))
  | [] => some []
  | .blank :: ls => programOf ls
  | .label _ :: ls => programOf ls
  | .code head operands :: ls =>
    match lookupMnemonic head with
    | none => none
    | some m => if arityOk m operands.length then (programOf ls).map ((m, operands) :: ·) else none

/-- The instruction has the mnemonic written, and each of its operand bytes is what the token written there resolves to. -/
abbrev InstrWritten (hostIntMax : Nat) (symtab : Symtab) (line : Mnemonic × List Token) (i : Instr) : Prop :=
  mnemonicOf i = line.1 ∧
    List.Forall₂ (fun t b => ∃ n, resolveOperand hostIntMax symtab n t = .byte b) line.2 (operandsOf i)

/-- `left` is the state that a step stopped by a fault leaves. -/
abbrev FaultLeaves (o : Host.Outcome State Fault Refusal) (left : State) : Prop :=
  ∃ op addr, o = .fault (.illegalOpcode op addr left)

end Sys2Proof.Machine
end

