-- ==== Sys2Proof/Certificates/Slice0/Obligations.lean ====
section
/-! DEFINITION. The statements for the provers. Where a statement rests on a decision of the spec (92_eei_decisions.md) or a choice
of the model, its docstring names the decision and the log entry. -/

open Sys2Proof Sys2Proof.Machine

/-! ## Arithmetic -/

/-- 42_arithmetic.md R134: A gets the true result modulo 256, and no flag is read: no carry-in, no borrow-in. -/
def Obligations.ArithmeticResultModulo256 : Prop :=
  ∀ s : State,
    (∃ t, exec .add s = .next t ∧ (t.a.toNat : Int) = ((s.a.toNat : Int) + s.b.toNat) % 256) ∧
    (∃ t, exec .sub s = .next t ∧ (t.a.toNat : Int) = ((s.a.toNat : Int) - s.b.toNat) % 256) ∧
    (∃ t, exec .mul s = .next t ∧ (t.a.toNat : Int) = ((s.a.toNat : Int) * s.b.toNat) % 256) ∧
    ∀ i ∈ [Instr.add, Instr.sub, Instr.mul], ∀ (f : Byte) (t t' : State), exec i s = .next t →
      exec i { s with flags := f } = .next t' →
      t'.a = t.a ∧ flagAt t'.flags 1 = flagAt t.flags 1 ∧ flagAt t'.flags 2 = flagAt t.flags 2

/-- 42_arithmetic.md R136: bit 2 is written by every ADD, SUB and MUL, 1 exactly when the unbounded result is outside 0..255. -/
def Obligations.CarryFlagIsResultOutsideByte : Prop :=
  ∀ s : State,
    (∃ t, exec .add s = .next t ∧ (flagAt t.flags 2 = true ↔ 255 < s.a.toNat + s.b.toNat)) ∧
    (∃ t, exec .sub s = .next t ∧ (flagAt t.flags 2 = true ↔ s.a.toNat < s.b.toNat)) ∧
    (∃ t, exec .mul s = .next t ∧ (flagAt t.flags 2 = true ↔ 255 < s.a.toNat * s.b.toNat)) ∧
    ∀ (i : Instr) (raw : Int), RawResult s i raw →
      ∃ t, exec i s = .next t ∧ (flagAt t.flags 2 = true ↔ raw < 0 ∨ 255 < raw)

/-- 60_exceptions.md R254: an unbounded result outside 0..255 sets bit 2, A gets the result modulo 256 and execution continues at the
next instruction; the next ADD, SUB or MUL recomputes the flag, clearing it when its own result fits. -/
def Obligations.OverflowIsRecordedAndExecutionContinues : Prop :=
  ∀ (s : State) (i : Instr) (raw : Int), RawResult s i raw →
    ∃ t, exec i s = .next t ∧ t.pc.toNat = pcAfter s 1 ∧ SameRunState s t ∧ (t.a.toNat : Int) = raw % 256 ∧
      (raw < 0 ∨ 255 < raw → flagAt t.flags 2 = true) ∧ (0 ≤ raw → raw ≤ 255 → flagAt t.flags 2 = false)

/-- 42_arithmetic.md, the zero flag of ADD, SUB and MUL tests the byte written to A, also when the unbounded result is a non-zero
multiple of 256. Rests on decision D6 (log 7). -/
def Obligations.ZeroFlagTestsTheByteWritten : Prop :=
  ∀ (s : State) (i : Instr) (raw : Int), RawResult s i raw →
    ∃ t, exec i s = .next t ∧ (flagAt t.flags 1 = true ↔ t.a = 0) ∧ (flagAt t.flags 1 = true ↔ raw % 256 = 0)

/-- 42_arithmetic.md, what ADD, SUB and MUL leave: B, memory, the streams, the run state, and every bit of FLAGS but 1 and 2. -/
def Obligations.AddSubMulFrame : Prop :=
  ∀ i ∈ [Instr.add, Instr.sub, Instr.mul], ∀ s : State,
    ∃ t, exec i s = .next t ∧ t.b = s.b ∧ t.pc.toNat = pcAfter s 1 ∧ SameFlagsBut [1, 2] s t ∧ SameMemory s t ∧
      SameStreams s t ∧ SameRunState s t

/-- 42_arithmetic.md, DIV with B not 0: A gets the quotient rounded down and bit 3 is cleared; everything else but `pc` is left,
bits 1 and 2 of FLAGS among it. Rests on decision D7 (log 8). -/
def Obligations.DivGivesQuotient : Prop :=
  ∀ s : State, s.b ≠ 0 →
    ∃ t, exec .div s = .next t ∧ t.a.toNat = s.a.toNat / s.b.toNat ∧ flagAt t.flags 3 = false ∧
      t.b = s.b ∧ t.pc.toNat = pcAfter s 1 ∧ SameFlagsBut [3] s t ∧ SameMemory s t ∧ SameStreams s t ∧ SameRunState s t

/-- 60_exceptions.md R253: DIV with B = 0 sets bit 3, leaves A and goes on at the next instruction; and whenever a step clears
bit 3, it ran a DIV with B not 0. -/
def Obligations.DivideByZeroFlagStaysUntilNextDiv : Prop :=
  (∀ s : State, s.b = 0 →
    ∃ t, exec .div s = .next t ∧ flagAt t.flags 3 = true ∧ t.a = s.a ∧ t.pc.toNat = pcAfter s 1 ∧ SameRunState s t) ∧
  ∀ s t : State, step s = .next t → flagAt s.flags 3 = true → flagAt t.flags 3 = false →
    s.b ≠ 0 ∧ ∃ rest, fetchDecode opcodeOf s = .ok .div rest

/-- 42_arithmetic.md, the frame of DIV with B = 0: nothing but `pc` and bit 3 of FLAGS. Rests on decision D7 (log 8). -/
def Obligations.DivideByZeroFrame : Prop :=
  ∀ s : State, s.b = 0 →
    ∃ t, exec .div s = .next t ∧ t.a = s.a ∧ t.b = s.b ∧ SameFlagsBut [3] s t ∧ SameMemory s t ∧ SameStreams s t ∧
      SameRunState s t

/-! ## Loads and stores -/

/-- 41_load_immediate.md, LDA: A is the literal, `pc` is two further, nothing else changes, no bit of FLAGS either (decision D8,
log 9). -/
def Obligations.LdaLoadsTheLiteral : Prop :=
  ∀ (imm : Byte) (s : State),
    ∃ t, exec (.lda imm) s = .next t ∧ t.a = imm ∧ t.pc.toNat = pcAfter s 2 ∧ t.b = s.b ∧ SameFlagsBut [] s t ∧
      SameMemory s t ∧ SameStreams s t ∧ SameRunState s t

/-- 41_load_immediate.md, LDB: B is the literal, `pc` is two further, nothing else changes, no bit of FLAGS either (decision D8,
log 9). -/
def Obligations.LdbLoadsTheLiteral : Prop :=
  ∀ (imm : Byte) (s : State),
    ∃ t, exec (.ldb imm) s = .next t ∧ t.b = imm ∧ t.pc.toNat = pcAfter s 2 ∧ t.a = s.a ∧ SameFlagsBut [] s t ∧
      SameMemory s t ∧ SameStreams s t ∧ SameRunState s t

/-- 43_memory_access.md, STA at every address, the program region among them: the byte at the effective address reads as A, every
other byte as before, and nothing else but `pc` changes. The address check always passes (decision D9, log 10). -/
def Obligations.StaStoresA : Prop :=
  ∀ (addr : Byte) (s : State), s.mem.wf = true →
    ∃ t, exec (.sta addr) s = .next t ∧ t.mem.read (effectiveAddress addr) = s.a ∧
      SameMemoryBut (effectiveAddress addr) s t ∧ t.a = s.a ∧ t.b = s.b ∧ t.pc.toNat = pcAfter s 2 ∧
      SameFlagsBut [] s t ∧ SameStreams s t ∧ SameRunState s t

/-- 43_memory_access.md, LDM: A is the byte at the effective address and nothing else but `pc` changes. No flag is written, also
when the byte is 0 (decisions D8 and D9, logs 9 and 10). -/
def Obligations.LdmLoadsA : Prop :=
  ∀ (addr : Byte) (s : State),
    ∃ t, exec (.ldm addr) s = .next t ∧ t.a = s.mem.read (effectiveAddress addr) ∧ t.b = s.b ∧
      t.pc.toNat = pcAfter s 2 ∧ SameFlagsBut [] s t ∧ SameMemory s t ∧ SameStreams s t ∧ SameRunState s t

/-- 43_memory_access.md, LD with selector 1 or 2: the selected register is the byte at the address, the other register and all
else but `pc` stay. No flag is written (decision D8, log 9). -/
def Obligations.LdLoadsTheSelectedRegister : Prop :=
  ∀ (addr : Byte) (s : State),
    (∃ t, exec (.ld 1 addr) s = .next t ∧ t.a = s.mem.read (effectiveAddress addr) ∧ t.b = s.b ∧
      t.pc.toNat = pcAfter s 3 ∧ SameFlagsBut [] s t ∧ SameMemory s t ∧ SameStreams s t ∧ SameRunState s t) ∧
    (∃ t, exec (.ld 2 addr) s = .next t ∧ t.b = s.mem.read (effectiveAddress addr) ∧ t.a = s.a ∧
      t.pc.toNat = pcAfter s 3 ∧ SameFlagsBut [] s t ∧ SameMemory s t ∧ SameStreams s t ∧ SameRunState s t)

/-- 60_exceptions.md R255: LD with a selector other than 1 and 2 appends one event to Diag, writes no register, records no flag, and
execution continues at the byte after its second operand. -/
def Obligations.BadSelectorIsReportedAndIgnored : Prop :=
  ∀ (sel addr : Byte) (s : State), sel ≠ 1 → sel ≠ 2 →
    ∃ t, exec (.ld sel addr) s = .next t ∧ t.diag = s.diag ++ [.badRegisterSelector sel] ∧ t.a = s.a ∧ t.b = s.b ∧
      t.pc.toNat = pcAfter s 3 ∧ SameFlagsBut [] s t ∧ SameMemory s t ∧ SameRunState s t ∧
      t.input = s.input ∧ t.inPos = s.inPos ∧ t.out = s.out

/-- 20_memory.md, 30_encoding.md: what STA writes is what the very next fetch at that address returns, and so is what INP
writes; the byte may be the next opcode. -/
def Obligations.StoresAreSeenByTheNextFetch : Prop :=
  ∀ (addr : Byte) (s t u : State), s.mem.wf = true → u.mem = t.mem → u.pc = effectiveAddress addr →
    (exec (.sta addr) s = .next t → (fetch u).1 = s.a) ∧
    (∀ v rest, s.input = v :: rest → exec (.inp addr) s = .next t → (fetch u).1 = v)

/-! ## Input and output -/

/-- 44_io.md, OUTV: the byte at the effective address is appended to Out, nothing else but `pc` changes (decision D13, log 11). -/
def Obligations.OutvEmitsTheByte : Prop :=
  ∀ (addr : Byte) (s : State),
    ∃ t, exec (.outv addr) s = .next t ∧ t.out = s.out ++ [s.mem.read (effectiveAddress addr)] ∧ t.a = s.a ∧ t.b = s.b ∧
      t.pc.toNat = pcAfter s 2 ∧ SameFlagsBut [] s t ∧ SameMemory s t ∧ SameRunState s t ∧
      t.input = s.input ∧ t.inPos = s.inPos ∧ t.diag = s.diag

/-- 44_io.md, INP with input: the head of In is stored at the effective address and removed from In; no register and no flag
changes (decision D11, log 11). -/
def Obligations.InpStoresTheNextInput : Prop :=
  ∀ (addr v : Byte) (rest : List Byte) (s : State), s.mem.wf = true → s.input = v :: rest →
    ∃ t, exec (.inp addr) s = .next t ∧ t.mem.read (effectiveAddress addr) = v ∧
      SameMemoryBut (effectiveAddress addr) s t ∧ t.input = rest ∧ t.inPos = s.inPos + 1 ∧ t.a = s.a ∧ t.b = s.b ∧
      t.pc.toNat = pcAfter s 2 ∧ SameFlagsBut [] s t ∧ t.out = s.out ∧ t.diag = s.diag ∧ SameRunState s t

/-- 44_io.md R172, INP without input holds: its tick is not enabled and has the outcome hold, RUNNING stays true, and the value the
host appends enables the tick, which then stores it. The host's interface has no hold, so the meaning by itself and the step show
it as an unchanged next state (DESIGN CHOICE, log 12). -/
def Obligations.InpHoldsUntilInputArrives : Prop :=
  ∀ (addr v : Byte) (s : State), s.mem.wf = true → s.input = [] →
    exec (.inp addr) s = .next s ∧
    (∃ t, exec (.inp addr) (appendInput v s) = .next t ∧ t.mem.read (effectiveAddress addr) = v ∧ t.input = [] ∧
      t.pc.toNat = pcAfter s 2) ∧
    ∀ rest, Live s → fetchDecode opcodeOf s = .ok (.inp addr) rest →
      tick opcodeOf s = .hold ∧ ¬CanTick s ∧ step s = .next s ∧ CanTick (appendInput v s) ∧
      ∃ t, tick opcodeOf (appendInput v s) = .next t ∧ t.mem.read (effectiveAddress addr) = v ∧ t.input = [] ∧
        t.pc.toNat = pcAfter s 2

/-- 40_tick_and_dispatch.md R105, 44_io.md: when input values arrive cannot be observed. Any interleaving of steps and arrivals that
reaches a state reaches the same state as some number of steps with every value present from the start. `tickCount` counts steps of
the model: the holds of an INP (DESIGN CHOICE, log 12) and the steps of a core that is not running (DESIGN CHOICE, log 14) among
them, which are no ticks of the spec; TicksDoNotDependOnArrivalTimes counts the ticks. -/
def Obligations.ArrivalTimesAreUnobservable : Prop :=
  ∀ (es : List Event) (s t : State), runEvents es s = some t →
    ∃ k, k ≤ tickCount es ∧
      Sys2Proof.core.run k ({ s with input := s.input ++ arrivals es } : State) = .next t

/-- 40_tick_and_dispatch.md R105: the state after n ticks depends on the values that In delivers and not on when they arrive. Ticks
that are made, interleaved with arrivals in any way, reach the state that as many ticks reach with every value present from the
start, each of them enabled; so two interleavings with as many ticks and the same values reach the same state. A hold is no tick. -/
def Obligations.TicksDoNotDependOnArrivalTimes : Prop :=
  (∀ (es : List Event) (s t : State), runTicks es s = some t →
    runTicks (List.replicate (tickCount es) .tick) { s with input := s.input ++ arrivals es } = some t) ∧
  ∀ (es es' : List Event) (s t t' : State), tickCount es = tickCount es' → arrivals es = arrivals es' →
    runTicks es s = some t → runTicks es' s = some t' → t = t'

/-! ## Control -/

/-- 45_control.md R184: a jump not taken falls through to the byte after its operand; a jump taken discards the incremented `pc` for
the operand byte; either way nothing else changes. -/
def Obligations.JumpTakenOrFallsThrough : Prop :=
  ∀ (addr : Byte) (s : State),
    (∃ t, exec (.jez addr) s = .next t ∧
      (flagAt s.flags 1 = true → t.pc = addr) ∧ (flagAt s.flags 1 = false → t.pc.toNat = pcAfter s 2) ∧
      t.a = s.a ∧ t.b = s.b ∧ SameFlagsBut [] s t ∧ SameMemory s t ∧ SameStreams s t ∧ SameRunState s t) ∧
    (∃ t, exec (.jnz addr) s = .next t ∧
      (flagAt s.flags 1 = false → t.pc = addr) ∧ (flagAt s.flags 1 = true → t.pc.toNat = pcAfter s 2) ∧
      t.a = s.a ∧ t.b = s.b ∧ SameFlagsBut [] s t ∧ SameMemory s t ∧ SameStreams s t ∧ SameRunState s t)

/-- 45_control.md, 10_state.md: `pc` moves past the instruction's bytes, and only a taken JEZ or JNZ puts it elsewhere; an INP that
holds (log 12) keeps the whole state. -/
def Obligations.OnlyJumpsTransferControl : Prop :=
  ∀ (i : Instr) (s t : State), exec i s = .next t →
    t.pc.toNat = pcAfter s (lengthOf i) ∨
    (∃ addr, t.pc = addr ∧ (i = .jez addr ∧ flagAt s.flags 1 = true ∨ i = .jnz addr ∧ flagAt s.flags 1 = false)) ∨
    (∃ addr, i = .inp addr ∧ s.input = [] ∧ t = s)

/-- 10_state.md, no instruction reads `pc` as data: from another `pc` every instruction does the same to everything but `pc`. -/
def Obligations.ProgramCounterIsNotData : Prop :=
  ∀ (i : Instr) (s t : State) (p : Byte), exec i s = .next t →
    ∃ t', exec i { s with pc := p } = .next t' ∧ t' = { t with pc := t'.pc }

/-- 45_control.md R182: HLT is the byte 0xFF, sets RUNNING to false, leaves registers, flags, memory and streams, moves `pc` past
itself, and no tick follows: no later step changes anything. -/
def Obligations.HltEndsTheRun : Prop :=
  encode .hlt = [0xFF] ∧ decode [0xFF] = .ok .hlt [] ∧
  ∀ s : State,
    ∃ t, exec .hlt s = .next t ∧ t.running = false ∧ t.pc.toNat = pcAfter s 1 ∧ t.a = s.a ∧ t.b = s.b ∧
      SameFlagsBut [] s t ∧ SameMemory s t ∧ SameStreams s t ∧ t.fault = s.fault ∧ t.loaded = s.loaded ∧
      (s.fault = none → s.loaded = .loaded → statusOf t = some .halted) ∧ ∀ u, step t = .next u → u = t

/-- 10_state.md, RUNNING: a tick is made only while it is true; it is true after a successful load, only HLT sets it to false, nothing
sets it to true again, and no instruction reads it. While it is true and FAULT none a step answers the tick's next state or fault;
that it answers a hold with the unchanged state is the model's choice (DESIGN CHOICE, log 12), and so is the unchanged state of a step
while RUNNING is false (DESIGN CHOICE, log 14). -/
def Obligations.RunningIsClearedOnlyByHlt : Prop :=
  (∀ s : State, CanTick s → s.running = true) ∧
  (∀ s : State, Live s → step s = stepOutcome s (tick opcodeOf s)) ∧
  (∀ s t : State, step s = .next t → s.running = false → t = s) ∧
  (∀ s t : State, step s = .next t → s.running = true → t.running = false →
    ∃ rest, fetchDecode opcodeOf s = .ok .hlt rest) ∧
  (∀ s left : State, FaultLeaves (step s) left → left.running = s.running) ∧
  (∀ (ps : Config.ProgSize) (image : List Byte) (t : State), startRun ps image = some t → image.length ≤ ps.size →
    t.running = true) ∧
  (∀ (i : Instr) (s t : State) (r : Bool), exec i s = .next t → i ≠ .hlt →
    exec i { s with running := r } = .next { t with running := r }) ∧
  (∀ (s t : State) (r : Bool), exec .hlt s = .next t → exec .hlt { s with running := r } = .next t)

/-! ## The tick -/

/-- 40_tick_and_dispatch.md R101: `fetch()` returns the byte at `pc` and advances `pc` by one modulo 256, with no other effect, and the
opcode and operand bytes a tick decodes are those of one fetch after another. -/
def Obligations.FetchReadsAndAdvances : Prop :=
  ∀ s : State,
    (∃ rest, codeWindow s = (fetch s).1 :: (fetch (fetch s).2).1 :: (fetch (fetch (fetch s).2).2).1 :: rest) ∧
    (fetch s).1 = s.mem.read s.pc ∧ (fetch s).2.pc.toNat = pcAfter s 1 ∧ (fetch s).2.a = s.a ∧ (fetch s).2.b = s.b ∧
    SameFlagsBut [] s (fetch s).2 ∧ SameMemory s (fetch s).2 ∧ SameStreams s (fetch s).2 ∧ SameRunState s (fetch s).2

/-- 40_tick_and_dispatch.md: with RUNNING true and FAULT none, a step at a state whose bytes at `pc` (wrapping) decode to an
instruction is that instruction's execution there; every meaning moves `pc` past the instruction's bytes itself. For the hold of an
INP both are the unchanged state (DESIGN CHOICE, log 12). -/
def Obligations.StepRunsTheDecodedInstruction : Prop :=
  ∀ (s : State) (i : Instr) (rest : List Byte), Live s → i.wf = true →
    decode [s.mem.read s.pc, s.mem.read (s.pc + 1), s.mem.read (s.pc + 2)] = .ok i rest → step s = exec i s

/-- 40_tick_and_dispatch.md R103: the opcode byte selects exactly one instruction, and its operand bytes are the ones fetched after
it, in ascending order. -/
def Obligations.DispatchIsByTheOpcodeByte : Prop :=
  ∀ s : State, Live s →
    (s.mem.read s.pc = opcodeOf .lda → step s = exec (.lda (s.mem.read (s.pc + 1))) s) ∧
    (s.mem.read s.pc = opcodeOf .ldb → step s = exec (.ldb (s.mem.read (s.pc + 1))) s) ∧
    (s.mem.read s.pc = opcodeOf .add → step s = exec .add s) ∧
    (s.mem.read s.pc = opcodeOf .sub → step s = exec .sub s) ∧
    (s.mem.read s.pc = opcodeOf .mul → step s = exec .mul s) ∧
    (s.mem.read s.pc = opcodeOf .div → step s = exec .div s) ∧
    (s.mem.read s.pc = opcodeOf .sta → step s = exec (.sta (s.mem.read (s.pc + 1))) s) ∧
    (s.mem.read s.pc = opcodeOf .ldm → step s = exec (.ldm (s.mem.read (s.pc + 1))) s) ∧
    (s.mem.read s.pc = opcodeOf .ld → step s = exec (.ld (s.mem.read (s.pc + 1)) (s.mem.read (s.pc + 2))) s) ∧
    (s.mem.read s.pc = opcodeOf .outv → step s = exec (.outv (s.mem.read (s.pc + 1))) s) ∧
    (s.mem.read s.pc = opcodeOf .inp → step s = exec (.inp (s.mem.read (s.pc + 1))) s) ∧
    (s.mem.read s.pc = opcodeOf .jez → step s = exec (.jez (s.mem.read (s.pc + 1))) s) ∧
    (s.mem.read s.pc = opcodeOf .jnz → step s = exec (.jnz (s.mem.read (s.pc + 1))) s) ∧
    (s.mem.read s.pc = opcodeOf .hlt → step s = exec .hlt s)

/-- 30_encoding.md, under every injective opcode map: an instruction placed at `pc`, wrapping at the top of memory, is what the
step executes. -/
def Obligations.PlacedInstructionRunsUnderAnyOpcodeMap : Prop :=
  ∀ (opc : Mnemonic → Byte) (i : Instr) (s : State), Function.Injective opc → s.mem.wf = true → Live s →
    tickIfEnabled opc (placeCode s (encodeWith opc i)) = exec i (placeCode s (encodeWith opc i))

/-- 30_encoding.md, 60_exceptions.md: a fetched byte that is nobody's opcode faults; FAULT holds the byte and its address, `pc` is past
it, nothing else changes, RUNNING stays true, the level of STATUS is faulted after a load, and every later step is the same
fault. Rests on decision D5 and on the model's fault carrying the state it leaves (log 6). -/
def Obligations.IllegalOpcodeFaultsForGood : Prop :=
  ∀ s : State, Live s → (∀ m, opcodeOf m ≠ s.mem.read s.pc) →
    ∃ left, step s = .fault (.illegalOpcode (s.mem.read s.pc) s.pc left) ∧
      left.fault = some (.illegalOpcode (s.mem.read s.pc) s.pc) ∧ left.pc.toNat = pcAfter s 1 ∧ left.running = true ∧
      left.a = s.a ∧ left.b = s.b ∧ SameFlagsBut [] s left ∧ SameMemory s left ∧ SameStreams s left ∧
      (s.loaded = .loaded → statusOf left = some .faulted) ∧
      step left = .fault (.illegalOpcode (s.mem.read s.pc) s.pc left)

/-- 00_scope.md R8, the outcomes of a tick while RUNNING is true and FAULT none: a hold exactly when the tick is not enabled, that is
when the byte at `pc` is the opcode of INP and In is empty; a fault exactly when the byte is no opcode (decision D5, log 6); in
every other case a next state, and nothing else stops the machine (no watchdog, no privilege, no trap). The step shows a hold as an
unchanged next state (DESIGN CHOICE, log 12), so a step is a next state exactly when the byte is an opcode. -/
def Obligations.EveryOpcodeRuns : Prop :=
  ∀ s : State, Live s →
    ((∃ t, tick opcodeOf s = .next t) ↔ CanTick s ∧ ∃ m, opcodeOf m = s.mem.read s.pc) ∧
    (tick opcodeOf s = .hold ↔ ¬CanTick s) ∧
    (¬CanTick s ↔ s.mem.read s.pc = opcodeOf .inp ∧ s.input = []) ∧
    ((∃ reason, tick opcodeOf s = .fault reason) ↔ ∀ m, opcodeOf m ≠ s.mem.read s.pc) ∧
    (∀ why, tick opcodeOf s ≠ .refused why) ∧
    ((∃ t, step s = .next t) ↔ ∃ m, opcodeOf m = s.mem.read s.pc)

/-- 40_tick_and_dispatch.md R106: the only tick that leaves the whole state as it found it is a taken jump to its own address; a
step keeps the state then and on the hold of an INP, which is no tick and which the step shows so (DESIGN CHOICE, log 12). -/
def Obligations.OnlySelfJumpOrHoldKeepsTheState : Prop :=
  ∀ s : State, Live s →
    (tick opcodeOf s = .next s ↔
      ∃ rest, (fetchDecode opcodeOf s = .ok (.jez s.pc) rest ∧ flagAt s.flags 1 = true) ∨
        (fetchDecode opcodeOf s = .ok (.jnz s.pc) rest ∧ flagAt s.flags 1 = false)) ∧
    (step s = .next s ↔
      ∃ rest, (fetchDecode opcodeOf s = .ok (.jez s.pc) rest ∧ flagAt s.flags 1 = true) ∨
        (fetchDecode opcodeOf s = .ok (.jnz s.pc) rest ∧ flagAt s.flags 1 = false) ∨
        ∃ addr, fetchDecode opcodeOf s = .ok (.inp addr) rest ∧ s.input = [])

/-- 10_state.md, the table of which instructions write A and B: a step that changes a register ran one of them. -/
def Obligations.RegistersHaveOnlyTheirWriters : Prop :=
  ∀ s t : State, step s = .next t →
    (t.a ≠ s.a → ∃ i rest, fetchDecode opcodeOf s = .ok i rest ∧
      ((∃ imm, i = .lda imm) ∨ i = .add ∨ i = .sub ∨ i = .mul ∨ (i = .div ∧ s.b ≠ 0) ∨ (∃ x, i = .ldm x) ∨
        ∃ x, i = .ld 1 x)) ∧
    (t.b ≠ s.b → ∃ i rest, fetchDecode opcodeOf s = .ok i rest ∧ ((∃ imm, i = .ldb imm) ∨ ∃ x, i = .ld 2 x))

/-- 40_tick_and_dispatch.md, 20_memory.md: a step changes at most one byte of memory, the one that the STA or INP it ran names. -/
def Obligations.MemoryHasOnlyTwoWriters : Prop :=
  ∀ (s t : State) (x : Byte), step s = .next t → t.mem.read x ≠ s.mem.read x →
    ∃ addr rest, effectiveAddress addr = x ∧
      (fetchDecode opcodeOf s = .ok (.sta addr) rest ∨ fetchDecode opcodeOf s = .ok (.inp addr) rest)

/-- 70_reset_and_hazards.md, stale flags: only ADD, SUB and MUL change the zero flag, and a jump goes by that flag, not by A.
Rests on decisions D7 and D8 (logs 8 and 9). -/
def Obligations.ZeroFlagIsTheLastArithmetic : Prop :=
  (∀ s t : State, step s = .next t → flagAt t.flags 1 ≠ flagAt s.flags 1 →
    ∃ i rest, fetchDecode opcodeOf s = .ok i rest ∧ (i = .add ∨ i = .sub ∨ i = .mul)) ∧
  ∀ (addr v : Byte) (s t t' : State),
    (exec (.jez addr) s = .next t → exec (.jez addr) { s with a := v } = .next t' → t'.pc = t.pc) ∧
    (exec (.jnz addr) s = .next t → exec (.jnz addr) { s with a := v } = .next t' → t'.pc = t.pc)

/-- 10_state.md, the other flag bits: no step changes bits 7 to 4 or bit 0, and only ADD, SUB, MUL change bit 2 and only DIV bit 3.
Bit 0 rests on decision D9 (log 10), the rest on D7 and D8 (logs 8 and 9). -/
def Obligations.FlagBitsHaveOnlyTheirWriters : Prop :=
  ∀ s t : State, step s = .next t →
    SameFlagsBut [1, 2, 3] s t ∧
    (flagAt t.flags 2 ≠ flagAt s.flags 2 →
      ∃ i rest, fetchDecode opcodeOf s = .ok i rest ∧ (i = .add ∨ i = .sub ∨ i = .mul)) ∧
    (flagAt t.flags 3 ≠ flagAt s.flags 3 → ∃ rest, fetchDecode opcodeOf s = .ok .div rest)

/-! ## Reset, load and the invariant -/

/-- 10_state.md, 70_reset_and_hazards.md: the state right after reset. The zeros of A, B, FLAGS and memory are decision D4 (logs 2 and
3); In is empty until the host appends (log 11); STATUS has no level yet (log 16). -/
def Obligations.ResetLeavesTheSpecValues : Prop :=
  State.reset.a = 0 ∧ State.reset.b = 0 ∧ State.reset.pc = 0 ∧ State.reset.flags = 0 ∧
  (∀ x, State.reset.mem.read x = 0) ∧ State.reset.running = false ∧ State.reset.fault = none ∧
  State.reset.input = [] ∧ State.reset.inPos = 0 ∧ State.reset.out = [] ∧ State.reset.diag = [] ∧
  statusOf State.reset = none ∧ ∀ t, step State.reset = .next t → t = State.reset

/-- The invariant holds at reset. -/
def Obligations.ResetMeetsTheInvariant : Prop := Inv State.reset

/-- Every step keeps the invariant, also a step that a fault stops: memory stays in its canonical form, only a loaded image runs,
and a faulted core still has RUNNING true. -/
def Obligations.EveryStepKeepsTheInvariant : Prop :=
  ∀ s : State, Inv s → (∀ t, step s = .next t → Inv t) ∧ ∀ left, FaultLeaves (step s) left → Inv left

/-- Every move of the host keeps the invariant. -/
def Obligations.EveryHostMoveKeepsTheInvariant : Prop :=
  ∀ (ps : Config.ProgSize) (mv : HostMove) (s t : State), Inv s → hostMove ps mv s = some t → Inv t

/-- Memory in its canonical form is determined by what its bytes read as (log 3). -/
def Obligations.EqualReadsAreEqualMemories : Prop :=
  ∀ m m' : Memory, m.wf = true → m'.wf = true → (∀ x, m.read x = m'.read x) → m = m'

/-- 70_reset_and_hazards.md, a load that fits, for every program size: byte k of the image is at address k, the other bytes are as
before, registers and streams too, and the core runs. A zero-length image is decision D24 (log 23). -/
def Obligations.LoadCopiesTheImage : Prop :=
  ∀ (ps : Config.ProgSize) (image : List Byte) (s : State), s.mem.wf = true → s.loaded = .notLoaded → s.fault = none →
    image.length ≤ ps.size →
    ∃ t, loadImage ps image s = some t ∧ (∀ (k : Nat) (v : Byte), image[k]? = some v → t.mem.read (BitVec.ofNat 8 k) = v) ∧
      (∀ x : Byte, image.length ≤ x.toNat → t.mem.read x = s.mem.read x) ∧ Live t ∧ statusOf t = some .running ∧
      t.a = s.a ∧ t.b = s.b ∧ t.pc = s.pc ∧ t.flags = s.flags ∧ SameStreams s t

/-- 70_reset_and_hazards.md, a load that does not fit, in every state before a load, whatever input the host has appended: no byte of
memory, no register and no stream is written, STATUS is load_refused and no tick ever happens: whatever steps and arrivals follow,
only In grows. That a step there is an unchanged next state is the model's choice (DESIGN CHOICE, log 14), and so is that no further
image is taken (DESIGN CHOICE, log 24). -/
def Obligations.LoadThatDoesNotFitIsRefused : Prop :=
  ∀ (ps : Config.ProgSize) (image : List Byte) (s : State), Inv s → s.loaded = .notLoaded → ps.size < image.length →
    ∃ t, loadImage ps image s = some t ∧ SameMemory s t ∧ t.a = s.a ∧ t.b = s.b ∧ t.pc = s.pc ∧ t.flags = s.flags ∧
      SameStreams s t ∧ t.running = false ∧ t.fault = none ∧ statusOf t = some .loadRefused ∧ step t = .next t ∧
      (∀ (es : List Event) (u : State), runEvents es t = some u → u = { t with input := t.input ++ arrivals es }) ∧
      ∀ (ps' : Config.ProgSize) (image' : List Byte), loadImage ps' image' t = none

/-- 70_reset_and_hazards.md: in every state of a loaded run STATUS is halted exactly when RUNNING is false, faulted exactly when FAULT is
set, running otherwise. The level faulted is the spec's own (decision D5). -/
def Obligations.StatusTellsTheRunState : Prop :=
  ∀ s : State, Inv s → s.loaded = .loaded →
    (statusOf s = some .halted ↔ s.running = false) ∧ (statusOf s = some .faulted ↔ s.fault ≠ none) ∧
    (statusOf s = some .running ↔ Live s)

/-- 30_encoding.md, 70_reset_and_hazards.md: an image made of the encodings of instructions, loaded, runs each of them when `pc` is its
offset and nothing has stored over it since. -/
def Obligations.LoadedImageRunsItsInstructions : Prop :=
  ∀ (ps : Config.ProgSize) (before : List Instr) (i : Instr) (after : List Instr) (t u : State),
    ((before ++ i :: after).flatMap encode).length ≤ ps.size →
    startRun ps ((before ++ i :: after).flatMap encode) = some t →
    SameMemory t u → Live u → u.pc.toNat = (before.flatMap encode).length → step u = exec i u

/-! ## Encoding of single instructions -/

/-- 30_encoding.md, words of every format written out from its tables decode to their instructions, the source's example of R84
among them. Opcode values other than LDA, LDB, ADD and HLT are decision D3 (log 1). -/
def Obligations.SpecWordsDecode : Prop :=
  decode [0x01, 0x05] = .ok (.lda 5) [] ∧ decode [0x02, 0x03] = .ok (.ldb 3) [] ∧ decode [0x03] = .ok .add [] ∧
  decode [0x05, 0xC8] = .ok (.outv 0xC8) [] ∧ decode [0x08, 0x09] = .ok (.jez 9) [] ∧
  decode [0x0D, 0x02, 0xC9] = .ok (.ld 2 0xC9) [] ∧ decode [0xFF] = .ok .hlt []

/-- 30_encoding.md, under every injective opcode map the encoding of an instruction, whatever follows it, decodes to that
instruction with every operand, and what follows is left over. -/
def Obligations.DecodeOfEncodeUnderAnyOpcodeMap : Prop :=
  ∀ (opc : Mnemonic → Byte) (i : Instr) (rest : List Byte), Function.Injective opc →
    decodeWith opc (encodeWith opc i ++ rest) = .ok i rest

/-- 30_encoding.md, under every opcode map: bytes that decode to an instruction are its encoding and what follows. -/
def Obligations.DecodedBytesAreTheEncoding : Prop :=
  ∀ (opc : Mnemonic → Byte) (i : Instr) (bytes rest : List Byte), decodeWith opc bytes = .ok i rest →
    bytes = encodeWith opc i ++ rest

/-- 30_encoding.md, the illegal opcodes are exactly 0x00 and 0x0E to 0xFE: they are rejected by name whatever follows, and any other
byte followed by two more decodes. The values are decision D3 (log 1). -/
def Obligations.IllegalOpcodesAreExactlyTheRest : Prop :=
  ∀ (op x y : Byte) (rest : List Byte),
    (decode (op :: rest) = .bad (.illegalOpcode op) ↔ op = 0 ∨ 0x0E ≤ op.toNat ∧ op.toNat ≤ 0xFE) ∧
    ((∃ i r, decode [op, x, y] = .ok i r) ↔ ¬(op = 0 ∨ 0x0E ≤ op.toNat ∧ op.toNat ≤ 0xFE))

/-! ## The encoder -/

/-- 50_assembler.md R202: everything from the first comment marker on is stripped, and nothing else. -/
def Obligations.CommentsAreStripped : Prop :=
  (∀ line tail : List Byte, (0x3B : Byte) ∉ line → stripComment (line ++ 0x3B :: tail) = line) ∧
  ∀ line : List Byte, (0x3B : Byte) ∉ line → stripComment line = line

/-- 50_assembler.md, lines and tokens: a line feed ends a line, a last line without one is a line, and the tokens of a line are its
maximal runs of characters other than the five whitespace bytes, whatever whitespace stands before, between and after them, also
none at either end. The line feed and the whitespace set are decision D20 (log 21). -/
def Obligations.LinesAndTokensAreReadBack : Prop :=
  splitLines [] = [] ∧
  (∀ line rest : List Byte, (0x0A : Byte) ∉ line → splitLines (line ++ 0x0A :: rest) = line :: splitLines rest) ∧
  (∀ line : List Byte, (0x0A : Byte) ∉ line → line ≠ [] → splitLines line = [line]) ∧
  (∀ c : Byte, isSpace c = true ↔ Whitespace c) ∧
  (∀ blanks : List Byte, (∀ c ∈ blanks, Whitespace c) → tokens blanks = []) ∧
  ∀ (before after : List Byte) (front : List (Token × List Byte)) (last : Token),
    (∀ c ∈ before, Whitespace c) → (∀ c ∈ after, Whitespace c) → IsWord last →
    (∀ p ∈ front, IsWord p.1 ∧ p.2 ≠ [] ∧ ∀ c ∈ p.2, Whitespace c) →
    tokens (before ++ front.flatMap (fun p => p.1 ++ p.2) ++ last ++ after) = front.map (·.1) ++ [last]

/-- 50_assembler.md, the three literal forms: digits in base 16 after `0x` or `0X`, those above 9 in lower or upper case, each digit
on its own; in base 8 after `0`; in base 10 when the first digit is not 0. The forms are decision D18 (log 19). -/
def Obligations.LiteralsHaveTheirValues : Prop :=
  (∀ (x : Byte) (d : Fin 16 × Bool) (ds : List (Fin 16 × Bool)), x = 0x78 ∨ x = 0x58 →
    parseLiteral (0x30 :: x :: (d :: ds).map hexDigit) = .value ((d :: ds).foldl (fun acc e => acc * 16 + e.1.val) 0)) ∧
  (∀ ds : List (Fin 8), parseLiteral (0x30 :: ds.map fun e => BitVec.ofNat 8 (0x30 + e.val)) =
    .value (ds.foldl (fun acc e => acc * 8 + e.val) 0)) ∧
  ∀ (d : Fin 10) (ds : List (Fin 10)), d.val ≠ 0 →
    parseLiteral ((d :: ds).map fun e => BitVec.ofNat 8 (0x30 + e.val)) =
      .value ((d :: ds).foldl (fun acc e => acc * 10 + e.val) 0)

/-- 50_assembler.md R207: a line without tokens is blank, a line whose first token ends with `:` defines the label without it, any
other is an instruction line; pass 1 counts one byte for the first token and one for every further token of an instruction line, known
mnemonic or not, nothing for other lines, and binds each label to the count before its line. -/
def Obligations.PassOneBindsLabelsToByteCounts : Prop :=
  (∀ line : List Byte, tokens (stripComment line) = [] → classify line = .blank) ∧
  (∀ (line : List Byte) (first : Token) (others : List Token), tokens (stripComment line) = first :: others →
    (first.getLast? = some 0x3A → classify line = .label first.dropLast) ∧
    (first.getLast? ≠ some 0x3A → classify line = .code first others)) ∧
  (∀ name, lineSize (.label name) = 0) ∧ lineSize .blank = 0 ∧
  (∀ head operands, lineSize (.code head operands) = 1 + operands.length) ∧
  ∀ lines : List Line,
    (pass1 lines).2 = (lines.map lineSize).sum ∧
    ∀ name v, (name, v) ∈ (pass1 lines).1 ↔
      ∃ before after, lines = before ++ .label name :: after ∧ v = (before.map lineSize).sum

/-- 50_assembler.md R212 and R213: a token that is a label is never read as a literal, and emits the label's address modulo 256; a
token that is no label is parsed as a literal. -/
def Obligations.LabelsComeBeforeLiterals : Prop :=
  ∀ (hostIntMax n : Nat) (symtab : Symtab) (t : Token),
    (∀ v, lookupLabel symtab t = some v →
      ∃ b, resolveOperand hostIntMax symtab n t = .byte b ∧ b.toNat = v % 256) ∧
    (lookupLabel symtab t = none → ∀ v, parseLiteral t = .value v → v ≤ hostIntMax →
      ∃ b, resolveOperand hostIntMax symtab n t = .byte b ∧ b.toNat = v % 256) ∧
    (lookupLabel symtab t = none → parseLiteral t = .invalid →
      resolveOperand hostIntMax symtab n t = .fail (.badOperand n t))

/-- 50_assembler.md R215: every token after a known mnemonic becomes exactly one byte after the opcode, whatever the mnemonic. -/
def Obligations.NoArityIsChecked : Prop :=
  ∀ (opc : Mnemonic → Byte) (hostIntMax n : Nat) (symtab : Symtab) (m : Mnemonic) (operands : List Token) (bs : List Byte),
    (emitLine opc hostIntMax symtab n (.code (spelling m) operands) = .ok bs →
      bs.head? = some (opc m) ∧ bs.length = 1 + operands.length) ∧
    ((∀ t ∈ operands, ∃ b, resolveOperand hostIntMax symtab n t = .byte b) →
      ∃ bs', emitLine opc hostIntMax symtab n (.code (spelling m) operands) = .ok bs')

/-- 50_assembler.md R217: a run that emits no byte fails with EmptyOutput, so every text of blank lines, labels and unknown
mnemonics only does, and no run gives an empty image. -/
def Obligations.EmptyOutputFails : Prop :=
  (∀ (hostIntMax : Nat) (text : List Byte), text.contains 0 = false →
    labelsDistinct (pass1 (parseLines text)).1 = true →
    (∀ head operands, .code head operands ∈ parseLines text → lookupMnemonic head = none) →
    assemble hostIntMax text = .fail .emptyOutput) ∧
  (∀ hostIntMax : Nat, assemble hostIntMax [] = .fail .emptyOutput) ∧
  (∀ (hostIntMax : Nat) (text : List Byte), assemble hostIntMax text = .fail .emptyOutput →
    emitLines opcodeOf hostIntMax (pass1 (parseLines text)).1 1 (parseLines text) = .ok []) ∧
  ∀ (hostIntMax : Nat) (text : List Byte), assemble hostIntMax text ≠ .ok []

/-- 50_assembler.md, the first bad operand in text order aborts the run, whatever stands after it, and nothing is emitted. The
order against tokens the model refuses is the model's (log 22). -/
def Obligations.FirstBadOperandAborts : Prop :=
  ∀ (opc : Mnemonic → Byte) (hostIntMax : Nat) (symtab : Symtab) (before after : List Line) (m : Mnemonic)
    (good bad : List Token) (t : Token) (out : List Byte),
    emitLines opc hostIntMax symtab 1 before = .ok out →
    (∀ g ∈ good, ∃ b, resolveOperand hostIntMax symtab (before.length + 1) g = .byte b) →
    lookupLabel symtab t = none → parseLiteral t = .invalid →
    pass2 opc hostIntMax symtab (before ++ .code (spelling m) (good ++ t :: bad) :: after) =
      .fail (.badOperand (before.length + 1) t)

/-- 50_assembler.md, a text whose every instruction line has a known mnemonic: the length pass 1 computes is the length of the
image, and a label is bound to the number of bytes emitted for the lines before its own. -/
def Obligations.PassLengthsAgree : Prop :=
  ∀ (opc : Mnemonic → Byte) (hostIntMax : Nat) (text image : List Byte), assembleWith opc hostIntMax text = .ok image →
    (∀ head operands, .code head operands ∈ parseLines text → (lookupMnemonic head).isSome = true) →
    image.length = (pass1 (parseLines text)).2 ∧
    ∀ (before after : List Line) (name : Token), parseLines text = before ++ .label name :: after →
      ∃ front back, emitLines opc hostIntMax (pass1 (parseLines text)).1 1 before = .ok front ∧ image = front ++ back ∧
        lookupLabel (pass1 (parseLines text)).1 name = some front.length

/-- 50_assembler.md, 30_encoding.md: a source text that keeps the arity contract and assembles gives an image that is the encodings,
in line order, of instructions with the mnemonics and the operand bytes written. -/
def Obligations.AssembledImageIsTheProgram : Prop :=
  ∀ (opc : Mnemonic → Byte) (hostIntMax : Nat) (text image : List Byte) (lines : List (Mnemonic × List Token)),
    assembleWith opc hostIntMax text = .ok image → programOf (parseLines text) = some lines →
    ∃ prog : List Instr,
      List.Forall₂ (InstrWritten hostIntMax (pass1 (parseLines text)).1) lines prog ∧ image = prog.flatMap (encodeWith opc)

/-- 92_eei_decisions.md D25, from source text to ticks: a source text that keeps the arity contract, assembled and loaded, has in
memory the instructions it writes, and each is executed whenever `pc` is its offset and nothing has stored over it. -/
def Obligations.SourceProgramRunsAsWritten : Prop :=
  ∀ (hostIntMax : Nat) (text image : List Byte) (lines : List (Mnemonic × List Token)) (ps : Config.ProgSize) (t : State),
    assemble hostIntMax text = .ok image → programOf (parseLines text) = some lines → image.length ≤ ps.size →
    startRun ps image = some t →
    ∃ prog : List Instr, List.Forall₂ (InstrWritten hostIntMax (pass1 (parseLines text)).1) lines prog ∧
      ∀ (before : List Instr) (i : Instr) (after : List Instr) (u : State), prog = before ++ i :: after →
        SameMemory t u → Live u → u.pc.toNat = (before.flatMap encode).length → step u = exec i u
end

