-- ==== Sys2Proof/Laws/Decode.lean ====
section
/-! SUPPORT. One lemma for each part of the decoder: what a found mnemonic is, and what taking operands gives. -/

namespace Sys2Proof

/-- Every mnemonic is in the instruction table's list. -/
theorem mem_all (m : Mnemonic) : m ∈ Mnemonic.all := by cases m <;> decide

/-- A mnemonic found for a byte has that byte as its opcode. -/
theorem opcode_of_found {opc : Mnemonic → Byte} {op : Byte} {m : Mnemonic} (h : mnemonicWith opc op = some m) :
    opc m = op := by
  have := List.find?_some h
  simpa using this

/-- No mnemonic is found exactly when the byte is nobody's opcode (30_encoding.md R78). -/
theorem found_none_iff {opc : Mnemonic → Byte} {op : Byte} : mnemonicWith opc op = none ↔ ∀ m, opc m ≠ op := by
  simp [mnemonicWith, List.find?_eq_none, mem_all]

/-- Taking the operands of `m` gives an instruction of that mnemonic whose operand bytes stood at the front. -/
theorem operands_of_taken {m : Mnemonic} {bs rest : List Byte} {i : Instr} (h : takeOperands m bs = .ok i rest) :
    mnemonicOf i = m ∧ bs = operandsOf i ++ rest := by
  cases m <;> rcases bs with _ | ⟨x, _ | ⟨y, bs⟩⟩ <;>
    simp only [takeOperands, takeOne, takeTwo, Decoded.ok.injEq, reduceCtorEq] at h <;>
    obtain ⟨rfl, rfl⟩ := h <;> exact ⟨rfl, rfl⟩

/-- An instruction's own operand bytes are taken as that instruction. -/
theorem takeOperands_operandsOf (i : Instr) (rest : List Byte) :
    takeOperands (mnemonicOf i) (operandsOf i ++ rest) = .ok i rest := by
  cases i <;> rfl

/-- With at least two bytes behind the opcode no operand is missing. -/
theorem takeOperands_two (m : Mnemonic) (x y : Byte) : ∃ i rest, takeOperands m [x, y] = .ok i rest := by
  cases m <;> exact ⟨_, _, rfl⟩

/-- "opcode values are unique across the table" (R74). -/
theorem opcodeOf_injective : Function.Injective opcodeOf := by
  intro m m' h
  revert h
  cases m <;> cases m' <;> decide

/-- No instruction is longer than the longest one (R70). -/
theorem lengthOf_le (i : Instr) : lengthOf i ≤ maxLength := by
  have h : ∀ m, operandCount m ≤ 2 := by intro m; cases m <;> decide
  have := h (mnemonicOf i)
  simp only [lengthOf, maxLength]
  omega

end Sys2Proof
end

