-- ==== Sys2Proof/Laws/Assembler.lean ====
section
/-! SUPPORT. One lemma for each part of the encoder: lines, tokens, mnemonic lookup, pass 1 and the emission of a line. -/

namespace Sys2Proof.Machine

/-- A line feed ends the line before it (50_assembler.md R201). -/
theorem splitLines_lineFeed (cs : List Byte) : splitLines (lineFeed :: cs) = [] :: splitLines cs := by
  simp [splitLines]

/-- Characters that are no whitespace join the token being read (R203). -/
theorem tokensFrom_word (cur t : Token) (rest : List Byte) (h : ∀ c ∈ t, isSpace c = false) :
    tokensFrom cur (t ++ rest) = tokensFrom (cur ++ t) rest := by
  induction t generalizing cur with
  | nil => simp
  | cons c cs ih =>
    rw [List.forall_mem_cons] at h
    simp [tokensFrom, h.1, ih _ h.2]

/-- Whitespace between tokens gives none, whatever its amount (R203). -/
theorem tokensFrom_blanks (blanks rest : List Byte) (h : ∀ c ∈ blanks, isSpace c = true) :
    tokensFrom [] (blanks ++ rest) = tokensFrom [] rest := by
  induction blanks with
  | nil => rfl
  | cons c cs ih =>
    rw [List.forall_mem_cons] at h
    simp [tokensFrom, h.1, flushToken, ih h.2]

/-- The lookup finds every mnemonic by its spelling (R211). -/
@[simp] theorem lookupMnemonic_spelling (m : Mnemonic) : lookupMnemonic (spelling m) = some m := by
  cases m <;> decide

/-- A mnemonic found for a token is spelt like it (R211). -/
theorem spelling_of_lookup {t : Token} {m : Mnemonic} (h : lookupMnemonic t = some m) : spelling m = t := by
  have := List.find?_some h
  simpa using this

/-- The counter of pass 1 from any start (R207). -/
theorem pass1From_counter (c : Nat) (ls : List Line) : (pass1From c ls).2 = c + (ls.map lineSize).sum := by
  induction ls generalizing c with
  | nil => simp [pass1From]
  | cons l ls ih =>
    cases l with
    | blank => simp [pass1From, ih, lineSize]
    | label name => simp [pass1From, ih, lineSize]
    | code head operands => simp [pass1From, ih, lineSize, Nat.add_assoc]

/-- Operand tokens that resolve give one byte each (R215). -/
theorem resolveOperands_length {M n : Nat} {st : Symtab} {ts : List Token} {bs : List Byte}
    (h : resolveOperands M st n ts = .ok bs) : bs.length = ts.length := by
  induction ts generalizing bs with
  | nil => simp only [resolveOperands, AsmOutcome.ok.injEq] at h; simp [← h]
  | cons t ts ih =>
    simp only [resolveOperands] at h
    split at h
    · split at h
      · next hr => injection h with h; simp [← h, ih hr]
      · cases h
      · cases h
    · cases h
    · cases h

/-- What an instruction line with a known mnemonic emits when it emits: the opcode, then one byte for each operand (R210, R215). -/
theorem emitLine_known {opc : Mnemonic → Byte} {M n : Nat} {st : Symtab} {head : Token} {ops : List Token}
    {m : Mnemonic} {bs : List Byte} (hm : lookupMnemonic head = some m)
    (h : emitLine opc M st n (.code head ops) = .ok bs) :
    ∃ operands, resolveOperands M st n ops = .ok operands ∧ bs = opc m :: operands := by
  simp only [emitLine, hm] at h
  split at h
  · next hr => injection h with h; exact ⟨_, hr, h.symm⟩
  · cases h
  · cases h

/-- A list of lines that emits, emits line by line (R210). -/
theorem emitLines_cons {opc : Mnemonic → Byte} {M n : Nat} {st : Symtab} {l : Line} {ls : List Line} {bs : List Byte}
    (h : emitLines opc M st n (l :: ls) = .ok bs) :
    ∃ front rest, emitLine opc M st n l = .ok front ∧ emitLines opc M st (n + 1) ls = .ok rest ∧ bs = front ++ rest := by
  simp only [emitLines] at h
  split at h
  · next hl =>
    split at h
    · next hr => injection h with h; exact ⟨_, _, hl, hr, h.symm⟩
    · cases h
    · cases h
  · cases h
  · cases h

/-- A successful run comes from an admitted text and a pass 2 that emitted at least one byte (R200, R217, R222). -/
theorem assembleWith_ok {opc : Mnemonic → Byte} {M : Nat} {text image : List Byte}
    (h : assembleWith opc M text = .ok image) :
    text.contains 0 = false ∧ labelsDistinct (pass1 (parseLines text)).1 = true ∧ image ≠ [] ∧
      emitLines opc M (pass1 (parseLines text)).1 1 (parseLines text) = .ok image := by
  unfold assembleWith at h
  split at h
  · cases h
  · next hz =>
    split at h
    · next hd =>
      unfold pass2 at h
      split at h
      · cases h
      · next he => injection h with h; subst h; exact ⟨by simpa using hz, hd, by simp, he⟩
      · cases h
      · cases h
    · cases h

end Sys2Proof.Machine
end

