-- ==== Sys2Proof/Laws/Flags.lean ====
section
/-! SUPPORT. What writing one flag does to every bit, and what the arithmetic flag rules give. -/

namespace Sys2Proof.Machine

/-- A flag's bit lies in the byte. -/
theorem flagBit_lt (fl : Flag) : flagBit fl < 8 := by cases fl <;> decide

/-- Two flag bytes that agree on every bit are equal. -/
theorem flags_ext {f g : Byte} (h : ∀ k, flagAt f k = flagAt g k) : f = g :=
  BitVec.eq_of_getLsbD_eq fun k _ => h k

/-- `FLAGS[i] <- v` writes bit `i` and leaves every other bit (00_scope.md R7). -/
theorem flagAt_setFlag (f : Byte) (fl : Flag) (v : Bool) (k : Nat) :
    flagAt (setFlag f fl v) k = if k = flagBit fl then v else flagAt f k := by
  have hk : k < 8 ∨ 8 ≤ k := by omega
  have hlt := flagBit_lt fl
  unfold flagAt
  rcases hk with hk | hk
  · cases v <;> cases fl <;> interval_cases k <;> simp [setFlag, flagBit]
  · rw [BitVec.getLsbD_of_ge _ _ hk, BitVec.getLsbD_of_ge _ _ hk, if_neg (by omega)]

/-- Reading one flag after writing one. -/
@[simp] theorem getFlag_setFlag (f : Byte) (fl fl' : Flag) (v : Bool) :
    getFlag (setFlag f fl v) fl' = if fl' = fl then v else getFlag f fl' := by
  unfold getFlag
  rw [flagAt_setFlag]
  cases fl <;> cases fl' <;> rfl

/-- Every bit of FLAGS after `ADD`, `SUB` or `MUL`: bit 1 is Z, bit 2 is C, the others are kept (42_arithmetic.md R135 to R137). -/
theorem flagAt_arithFlags (f : Byte) (raw : Int) (k : Nat) :
    flagAt (arithFlags f raw) k =
      if k = 2 then carryRule raw else if k = 1 then zeroRule zeroFromTruncated raw else flagAt f k := by
  rw [arithFlags, flagAt_setFlag, flagAt_setFlag]
  rfl

/-- The 8-bit result is the unbounded result modulo 256 (R134). -/
theorem byteResult_toNat (raw : Int) : ((byteResult raw).toNat : Int) = raw % 256 := by
  simp [byteResult, BitVec.toNat_ofInt]
  omega

/-- The zero flag tests the byte written to A (R135, decision D6). -/
theorem zeroRule_machine (raw : Int) : zeroRule zeroFromTruncated raw = decide (byteResult raw = 0) := rfl

end Sys2Proof.Machine
end

