-- ==== Sys2Proof/Laws/Memory.lean ====
section
/-! SUPPORT. What reading and writing memory do, and that every memory operation keeps the canonical form. -/

namespace Sys2Proof.Machine

/-- The canonical form of a listed cell and the rest. -/
theorem wfFrom_cons {lo k : Nat} {v : Byte} {rest : Memory} :
    Memory.wfFrom lo ((k, v) :: rest) = true ↔
      lo ≤ k ∧ k < 256 ∧ v ≠ Config.resetMem ∧ Memory.wfFrom (k + 1) rest = true := by
  simp only [Memory.wfFrom, Bool.and_eq_true, decide_eq_true_eq, bne_iff_ne, and_assoc]
  exact Iff.rfl

/-- The canonical form from an address on holds from every lower address on. -/
theorem wfFrom_mono {m : Memory} {lo lo' : Nat} (h : lo' ≤ lo) (hm : m.wfFrom lo = true) : m.wfFrom lo' = true := by
  cases m with
  | nil => rfl
  | cons c rest =>
    simp only [Memory.wfFrom, Bool.and_eq_true, decide_eq_true_eq] at hm ⊢
    exact ⟨⟨⟨by omega, hm.1.1.2⟩, hm.1.2⟩, hm.2⟩

/-- Memory listed from `lo` on reads as unlisted below `lo`. -/
theorem read_below {m : Memory} {lo : Nat} {x : Byte} (hm : m.wfFrom lo = true) (hx : x.toNat < lo) :
    m.read x = Config.resetMem := by
  induction m generalizing lo with
  | nil => rfl
  | cons c rest ih =>
    simp only [Memory.wfFrom, Bool.and_eq_true, decide_eq_true_eq] at hm
    have hne : c.1 ≠ x.toNat := by omega
    simp only [Memory.read, hne, if_false]
    exact ih hm.2 (by omega)

/-- Reading at the head of `cellFor` followed by memory listed above the address. -/
theorem read_cellFor_append {rest : Memory} {x v : Byte} (hr : rest.read x = Config.resetMem) :
    Memory.read (cellFor x v ++ rest) x = v := by
  unfold cellFor
  split
  · next h => simpa [h] using hr
  · simp [Memory.read]

/-- Putting a cell in front does not change what another address reads as. -/
theorem read_cellFor_append_other {rest : Memory} {x y v : Byte} (hxy : y ≠ x) :
    Memory.read (cellFor x v ++ rest) y = rest.read y := by
  unfold cellFor
  split
  · rfl
  · have : x.toNat ≠ y.toNat := fun h => hxy (BitVec.eq_of_toNat_eq h.symm)
    simp [Memory.read, this]

/-- A read after a write to the same address gives the value written. -/
theorem read_write_same_from {m : Memory} {lo : Nat} (x v : Byte) (hm : m.wfFrom lo = true) :
    (m.write x v).read x = v := by
  induction m generalizing lo with
  | nil => simpa [Memory.write] using read_cellFor_append (rest := []) (x := x) (v := v) rfl
  | cons c rest ih =>
    simp only [Memory.wfFrom, Bool.and_eq_true, decide_eq_true_eq] at hm
    simp only [Memory.write]
    split
    · next hlt =>
      refine read_cellFor_append ?_
      have hne : c.1 ≠ x.toNat := by omega
      simp only [Memory.read, hne, if_false]
      exact read_below hm.2 (by omega)
    · split
      · next _ heq => exact read_cellFor_append (read_below hm.2 (by omega))
      · next _ hne =>
        simp only [Memory.read, hne, if_false]
        exact ih hm.2

/-- A read after a write to the same address gives the value written (20_memory.md R46). -/
theorem read_write_same {m : Memory} (x v : Byte) (hm : m.wf = true) : (m.write x v).read x = v :=
  read_write_same_from x v hm

/-- A write leaves every other address alone (20_memory.md R46). -/
theorem read_write_other (m : Memory) {x y : Byte} (v : Byte) (hxy : y ≠ x) : (m.write x v).read y = m.read y := by
  have hn : y.toNat ≠ x.toNat := fun h => hxy (BitVec.eq_of_toNat_eq h)
  induction m with
  | nil => simpa [Memory.write] using read_cellFor_append_other (rest := []) (v := v) hxy
  | cons c rest ih =>
    simp only [Memory.write]
    split
    · exact read_cellFor_append_other hxy
    · split
      · next _ heq =>
        rw [read_cellFor_append_other hxy]
        have : c.1 ≠ y.toNat := by omega
        simp [Memory.read, this]
      · simp only [Memory.read, ih]

/-- Writing keeps the canonical form from `lo` on. -/
theorem wfFrom_write {m : Memory} {lo : Nat} {x : Byte} (v : Byte) (hm : m.wfFrom lo = true) (hx : lo ≤ x.toNat) :
    (m.write x v).wfFrom lo = true := by
  have hcell : ∀ rest : Memory, rest.wfFrom (x.toNat + 1) = true → (cellFor x v ++ rest).wfFrom lo = true := by
    intro rest hr
    unfold cellFor
    split
    · exact wfFrom_mono (by omega) hr
    · next hv =>
      have hlt := x.isLt
      simp [Memory.wfFrom, Config.memSize, hv, hr, hx, hlt]
  induction m generalizing lo with
  | nil => simpa [Memory.write] using hcell [] rfl
  | cons c rest ih =>
    have hm' := hm
    simp only [Memory.wfFrom, Bool.and_eq_true, decide_eq_true_eq] at hm
    simp only [Memory.write]
    split
    · next hlt =>
      refine hcell _ ?_
      simp only [Memory.wfFrom, Bool.and_eq_true, decide_eq_true_eq]
      exact ⟨⟨⟨by omega, hm.1.1.2⟩, hm.1.2⟩, hm.2⟩
    · next hge =>
      split
      · next heq => exact hcell _ (wfFrom_mono (by omega) hm.2)
      · next hne =>
        simp only [Memory.wfFrom, Bool.and_eq_true, decide_eq_true_eq]
        refine ⟨hm.1, ih hm.2 (by omega) ?_⟩
        intro rest hr
        unfold cellFor
        split
        · exact wfFrom_mono (by omega) hr
        · next hv =>
          have hlt := x.isLt
          have hle : c.1 + 1 ≤ x.toNat := by omega
          simp [Memory.wfFrom, Config.memSize, hv, hr, hle, hlt]

/-- A write keeps the canonical form. -/
theorem wf_write {m : Memory} (x v : Byte) (hm : m.wf = true) : (m.write x v).wf = true :=
  wfFrom_write v hm (Nat.zero_le _)

/-- Writing many bytes keeps the canonical form. -/
theorem wf_writeMany {m : Memory} (x : Byte) (bs : List Byte) (hm : m.wf = true) : (m.writeMany x bs).wf = true := by
  induction bs generalizing m x with
  | nil => exact hm
  | cons b bs ih => exact ih (x + 1) (wf_write x b hm)

/-- The memory right after reset is in its canonical form and every byte of it reads as RESET_MEM. -/
theorem reset_memory : State.reset.mem.wf = true ∧ ∀ x, State.reset.mem.read x = Config.resetMem := ⟨rfl, fun _ => rfl⟩

end Sys2Proof.Machine
end

