-- ==== Sys2Proof/Laws/State.lean ====
section
/-! SUPPORT. One lemma per field for each named update of State, so that no later proof unfolds a record update. -/

namespace Sys2Proof.Machine

@[simp] theorem writeMem_a (s : State) (x v : Byte) : (writeMem s x v).a = s.a := rfl
@[simp] theorem writeMem_b (s : State) (x v : Byte) : (writeMem s x v).b = s.b := rfl
@[simp] theorem writeMem_pc (s : State) (x v : Byte) : (writeMem s x v).pc = s.pc := rfl
@[simp] theorem writeMem_flags (s : State) (x v : Byte) : (writeMem s x v).flags = s.flags := rfl
@[simp] theorem writeMem_mem (s : State) (x v : Byte) : (writeMem s x v).mem = s.mem.write x v := rfl
@[simp] theorem writeMem_running (s : State) (x v : Byte) : (writeMem s x v).running = s.running := rfl
@[simp] theorem writeMem_fault (s : State) (x v : Byte) : (writeMem s x v).fault = s.fault := rfl
@[simp] theorem writeMem_input (s : State) (x v : Byte) : (writeMem s x v).input = s.input := rfl
@[simp] theorem writeMem_inPos (s : State) (x v : Byte) : (writeMem s x v).inPos = s.inPos := rfl
@[simp] theorem writeMem_out (s : State) (x v : Byte) : (writeMem s x v).out = s.out := rfl
@[simp] theorem writeMem_diag (s : State) (x v : Byte) : (writeMem s x v).diag = s.diag := rfl
@[simp] theorem writeMem_loaded (s : State) (x v : Byte) : (writeMem s x v).loaded = s.loaded := rfl

@[simp] theorem advance_a (n : Nat) (s : State) : (advance n s).a = s.a := rfl
@[simp] theorem advance_b (n : Nat) (s : State) : (advance n s).b = s.b := rfl
@[simp] theorem advance_pc (n : Nat) (s : State) : (advance n s).pc = s.pc + BitVec.ofNat 8 n := rfl
@[simp] theorem advance_flags (n : Nat) (s : State) : (advance n s).flags = s.flags := rfl
@[simp] theorem advance_mem (n : Nat) (s : State) : (advance n s).mem = s.mem := rfl
@[simp] theorem advance_running (n : Nat) (s : State) : (advance n s).running = s.running := rfl
@[simp] theorem advance_fault (n : Nat) (s : State) : (advance n s).fault = s.fault := rfl
@[simp] theorem advance_input (n : Nat) (s : State) : (advance n s).input = s.input := rfl
@[simp] theorem advance_inPos (n : Nat) (s : State) : (advance n s).inPos = s.inPos := rfl
@[simp] theorem advance_out (n : Nat) (s : State) : (advance n s).out = s.out := rfl
@[simp] theorem advance_diag (n : Nat) (s : State) : (advance n s).diag = s.diag := rfl
@[simp] theorem advance_loaded (n : Nat) (s : State) : (advance n s).loaded = s.loaded := rfl

@[simp] theorem jump_a (s : State) (target : Byte) : (jump s target).a = s.a := rfl
@[simp] theorem jump_b (s : State) (target : Byte) : (jump s target).b = s.b := rfl
@[simp] theorem jump_pc (s : State) (target : Byte) : (jump s target).pc = target := rfl
@[simp] theorem jump_flags (s : State) (target : Byte) : (jump s target).flags = s.flags := rfl
@[simp] theorem jump_mem (s : State) (target : Byte) : (jump s target).mem = s.mem := rfl
@[simp] theorem jump_running (s : State) (target : Byte) : (jump s target).running = s.running := rfl
@[simp] theorem jump_fault (s : State) (target : Byte) : (jump s target).fault = s.fault := rfl
@[simp] theorem jump_input (s : State) (target : Byte) : (jump s target).input = s.input := rfl
@[simp] theorem jump_inPos (s : State) (target : Byte) : (jump s target).inPos = s.inPos := rfl
@[simp] theorem jump_out (s : State) (target : Byte) : (jump s target).out = s.out := rfl
@[simp] theorem jump_diag (s : State) (target : Byte) : (jump s target).diag = s.diag := rfl
@[simp] theorem jump_loaded (s : State) (target : Byte) : (jump s target).loaded = s.loaded := rfl

@[simp] theorem pushOut_a (s : State) (v : Byte) : (pushOut s v).a = s.a := rfl
@[simp] theorem pushOut_b (s : State) (v : Byte) : (pushOut s v).b = s.b := rfl
@[simp] theorem pushOut_pc (s : State) (v : Byte) : (pushOut s v).pc = s.pc := rfl
@[simp] theorem pushOut_flags (s : State) (v : Byte) : (pushOut s v).flags = s.flags := rfl
@[simp] theorem pushOut_mem (s : State) (v : Byte) : (pushOut s v).mem = s.mem := rfl
@[simp] theorem pushOut_running (s : State) (v : Byte) : (pushOut s v).running = s.running := rfl
@[simp] theorem pushOut_fault (s : State) (v : Byte) : (pushOut s v).fault = s.fault := rfl
@[simp] theorem pushOut_input (s : State) (v : Byte) : (pushOut s v).input = s.input := rfl
@[simp] theorem pushOut_inPos (s : State) (v : Byte) : (pushOut s v).inPos = s.inPos := rfl
@[simp] theorem pushOut_out (s : State) (v : Byte) : (pushOut s v).out = s.out ++ [v] := rfl
@[simp] theorem pushOut_diag (s : State) (v : Byte) : (pushOut s v).diag = s.diag := rfl
@[simp] theorem pushOut_loaded (s : State) (v : Byte) : (pushOut s v).loaded = s.loaded := rfl

@[simp] theorem pushDiag_a (s : State) (e : DiagEvent) : (pushDiag s e).a = s.a := rfl
@[simp] theorem pushDiag_b (s : State) (e : DiagEvent) : (pushDiag s e).b = s.b := rfl
@[simp] theorem pushDiag_pc (s : State) (e : DiagEvent) : (pushDiag s e).pc = s.pc := rfl
@[simp] theorem pushDiag_flags (s : State) (e : DiagEvent) : (pushDiag s e).flags = s.flags := rfl
@[simp] theorem pushDiag_mem (s : State) (e : DiagEvent) : (pushDiag s e).mem = s.mem := rfl
@[simp] theorem pushDiag_running (s : State) (e : DiagEvent) : (pushDiag s e).running = s.running := rfl
@[simp] theorem pushDiag_fault (s : State) (e : DiagEvent) : (pushDiag s e).fault = s.fault := rfl
@[simp] theorem pushDiag_input (s : State) (e : DiagEvent) : (pushDiag s e).input = s.input := rfl
@[simp] theorem pushDiag_inPos (s : State) (e : DiagEvent) : (pushDiag s e).inPos = s.inPos := rfl
@[simp] theorem pushDiag_out (s : State) (e : DiagEvent) : (pushDiag s e).out = s.out := rfl
@[simp] theorem pushDiag_diag (s : State) (e : DiagEvent) : (pushDiag s e).diag = s.diag ++ [e] := rfl
@[simp] theorem pushDiag_loaded (s : State) (e : DiagEvent) : (pushDiag s e).loaded = s.loaded := rfl

@[simp] theorem stopRunning_a (s : State) : (stopRunning s).a = s.a := rfl
@[simp] theorem stopRunning_b (s : State) : (stopRunning s).b = s.b := rfl
@[simp] theorem stopRunning_pc (s : State) : (stopRunning s).pc = s.pc := rfl
@[simp] theorem stopRunning_flags (s : State) : (stopRunning s).flags = s.flags := rfl
@[simp] theorem stopRunning_mem (s : State) : (stopRunning s).mem = s.mem := rfl
@[simp] theorem stopRunning_running (s : State) : (stopRunning s).running = false := rfl
@[simp] theorem stopRunning_fault (s : State) : (stopRunning s).fault = s.fault := rfl
@[simp] theorem stopRunning_input (s : State) : (stopRunning s).input = s.input := rfl
@[simp] theorem stopRunning_inPos (s : State) : (stopRunning s).inPos = s.inPos := rfl
@[simp] theorem stopRunning_out (s : State) : (stopRunning s).out = s.out := rfl
@[simp] theorem stopRunning_diag (s : State) : (stopRunning s).diag = s.diag := rfl
@[simp] theorem stopRunning_loaded (s : State) : (stopRunning s).loaded = s.loaded := rfl

@[simp] theorem writeFlag_a (s : State) (fl : Flag) (v : Bool) : (writeFlag s fl v).a = s.a := rfl
@[simp] theorem writeFlag_b (s : State) (fl : Flag) (v : Bool) : (writeFlag s fl v).b = s.b := rfl
@[simp] theorem writeFlag_pc (s : State) (fl : Flag) (v : Bool) : (writeFlag s fl v).pc = s.pc := rfl
@[simp] theorem writeFlag_flags (s : State) (fl : Flag) (v : Bool) : (writeFlag s fl v).flags = setFlag s.flags fl v := rfl
@[simp] theorem writeFlag_mem (s : State) (fl : Flag) (v : Bool) : (writeFlag s fl v).mem = s.mem := rfl
@[simp] theorem writeFlag_running (s : State) (fl : Flag) (v : Bool) : (writeFlag s fl v).running = s.running := rfl
@[simp] theorem writeFlag_fault (s : State) (fl : Flag) (v : Bool) : (writeFlag s fl v).fault = s.fault := rfl
@[simp] theorem writeFlag_input (s : State) (fl : Flag) (v : Bool) : (writeFlag s fl v).input = s.input := rfl
@[simp] theorem writeFlag_inPos (s : State) (fl : Flag) (v : Bool) : (writeFlag s fl v).inPos = s.inPos := rfl
@[simp] theorem writeFlag_out (s : State) (fl : Flag) (v : Bool) : (writeFlag s fl v).out = s.out := rfl
@[simp] theorem writeFlag_diag (s : State) (fl : Flag) (v : Bool) : (writeFlag s fl v).diag = s.diag := rfl
@[simp] theorem writeFlag_loaded (s : State) (fl : Flag) (v : Bool) : (writeFlag s fl v).loaded = s.loaded := rfl

@[simp] theorem arith_a (s : State) (raw : Int) : (arith s raw).a = byteResult raw := rfl
@[simp] theorem arith_b (s : State) (raw : Int) : (arith s raw).b = s.b := rfl
@[simp] theorem arith_pc (s : State) (raw : Int) : (arith s raw).pc = s.pc := rfl
@[simp] theorem arith_flags (s : State) (raw : Int) : (arith s raw).flags = arithFlags s.flags raw := rfl
@[simp] theorem arith_mem (s : State) (raw : Int) : (arith s raw).mem = s.mem := rfl
@[simp] theorem arith_running (s : State) (raw : Int) : (arith s raw).running = s.running := rfl
@[simp] theorem arith_fault (s : State) (raw : Int) : (arith s raw).fault = s.fault := rfl
@[simp] theorem arith_input (s : State) (raw : Int) : (arith s raw).input = s.input := rfl
@[simp] theorem arith_inPos (s : State) (raw : Int) : (arith s raw).inPos = s.inPos := rfl
@[simp] theorem arith_out (s : State) (raw : Int) : (arith s raw).out = s.out := rfl
@[simp] theorem arith_diag (s : State) (raw : Int) : (arith s raw).diag = s.diag := rfl
@[simp] theorem arith_loaded (s : State) (raw : Int) : (arith s raw).loaded = s.loaded := rfl

@[simp] theorem fetch_byte (s : State) : (fetch s).1 = s.mem.read s.pc := rfl
@[simp] theorem fetch_a (s : State) : (fetch s).2.a = s.a := rfl
@[simp] theorem fetch_b (s : State) : (fetch s).2.b = s.b := rfl
@[simp] theorem fetch_pc (s : State) : (fetch s).2.pc = s.pc + 1 := rfl
@[simp] theorem fetch_flags (s : State) : (fetch s).2.flags = s.flags := rfl
@[simp] theorem fetch_mem (s : State) : (fetch s).2.mem = s.mem := rfl
@[simp] theorem fetch_running (s : State) : (fetch s).2.running = s.running := rfl
@[simp] theorem fetch_fault (s : State) : (fetch s).2.fault = s.fault := rfl
@[simp] theorem fetch_input (s : State) : (fetch s).2.input = s.input := rfl
@[simp] theorem fetch_inPos (s : State) : (fetch s).2.inPos = s.inPos := rfl
@[simp] theorem fetch_out (s : State) : (fetch s).2.out = s.out := rfl
@[simp] theorem fetch_diag (s : State) : (fetch s).2.diag = s.diag := rfl
@[simp] theorem fetch_loaded (s : State) : (fetch s).2.loaded = s.loaded := rfl

@[simp] theorem faultedBy_a (s : State) (op : Byte) : (faultedBy s op).a = s.a := rfl
@[simp] theorem faultedBy_b (s : State) (op : Byte) : (faultedBy s op).b = s.b := rfl
@[simp] theorem faultedBy_pc (s : State) (op : Byte) : (faultedBy s op).pc = s.pc + 1 := rfl
@[simp] theorem faultedBy_flags (s : State) (op : Byte) : (faultedBy s op).flags = s.flags := rfl
@[simp] theorem faultedBy_mem (s : State) (op : Byte) : (faultedBy s op).mem = s.mem := rfl
@[simp] theorem faultedBy_running (s : State) (op : Byte) : (faultedBy s op).running = s.running := rfl
@[simp] theorem faultedBy_fault (s : State) (op : Byte) : (faultedBy s op).fault = some (.illegalOpcode op s.pc) := rfl
@[simp] theorem faultedBy_input (s : State) (op : Byte) : (faultedBy s op).input = s.input := rfl
@[simp] theorem faultedBy_inPos (s : State) (op : Byte) : (faultedBy s op).inPos = s.inPos := rfl
@[simp] theorem faultedBy_out (s : State) (op : Byte) : (faultedBy s op).out = s.out := rfl
@[simp] theorem faultedBy_diag (s : State) (op : Byte) : (faultedBy s op).diag = s.diag := rfl
@[simp] theorem faultedBy_loaded (s : State) (op : Byte) : (faultedBy s op).loaded = s.loaded := rfl

@[simp] theorem placeCode_a (s : State) (bs : List Byte) : (placeCode s bs).a = s.a := rfl
@[simp] theorem placeCode_b (s : State) (bs : List Byte) : (placeCode s bs).b = s.b := rfl
@[simp] theorem placeCode_pc (s : State) (bs : List Byte) : (placeCode s bs).pc = s.pc := rfl
@[simp] theorem placeCode_flags (s : State) (bs : List Byte) : (placeCode s bs).flags = s.flags := rfl
@[simp] theorem placeCode_mem (s : State) (bs : List Byte) : (placeCode s bs).mem = s.mem.writeMany s.pc bs := rfl
@[simp] theorem placeCode_running (s : State) (bs : List Byte) : (placeCode s bs).running = s.running := rfl
@[simp] theorem placeCode_fault (s : State) (bs : List Byte) : (placeCode s bs).fault = s.fault := rfl
@[simp] theorem placeCode_input (s : State) (bs : List Byte) : (placeCode s bs).input = s.input := rfl
@[simp] theorem placeCode_inPos (s : State) (bs : List Byte) : (placeCode s bs).inPos = s.inPos := rfl
@[simp] theorem placeCode_out (s : State) (bs : List Byte) : (placeCode s bs).out = s.out := rfl
@[simp] theorem placeCode_diag (s : State) (bs : List Byte) : (placeCode s bs).diag = s.diag := rfl
@[simp] theorem placeCode_loaded (s : State) (bs : List Byte) : (placeCode s bs).loaded = s.loaded := rfl

@[simp] theorem startRunning_a (s : State) : (startRunning s).a = s.a := rfl
@[simp] theorem startRunning_b (s : State) : (startRunning s).b = s.b := rfl
@[simp] theorem startRunning_pc (s : State) : (startRunning s).pc = s.pc := rfl
@[simp] theorem startRunning_flags (s : State) : (startRunning s).flags = s.flags := rfl
@[simp] theorem startRunning_mem (s : State) : (startRunning s).mem = s.mem := rfl
@[simp] theorem startRunning_running (s : State) : (startRunning s).running = true := rfl
@[simp] theorem startRunning_fault (s : State) : (startRunning s).fault = none := rfl
@[simp] theorem startRunning_input (s : State) : (startRunning s).input = s.input := rfl
@[simp] theorem startRunning_inPos (s : State) : (startRunning s).inPos = s.inPos := rfl
@[simp] theorem startRunning_out (s : State) : (startRunning s).out = s.out := rfl
@[simp] theorem startRunning_diag (s : State) : (startRunning s).diag = s.diag := rfl
@[simp] theorem startRunning_loaded (s : State) : (startRunning s).loaded = .loaded := rfl

@[simp] theorem appendInput_a (v : Byte) (s : State) : (appendInput v s).a = s.a := rfl
@[simp] theorem appendInput_b (v : Byte) (s : State) : (appendInput v s).b = s.b := rfl
@[simp] theorem appendInput_pc (v : Byte) (s : State) : (appendInput v s).pc = s.pc := rfl
@[simp] theorem appendInput_flags (v : Byte) (s : State) : (appendInput v s).flags = s.flags := rfl
@[simp] theorem appendInput_mem (v : Byte) (s : State) : (appendInput v s).mem = s.mem := rfl
@[simp] theorem appendInput_running (v : Byte) (s : State) : (appendInput v s).running = s.running := rfl
@[simp] theorem appendInput_fault (v : Byte) (s : State) : (appendInput v s).fault = s.fault := rfl
@[simp] theorem appendInput_input (v : Byte) (s : State) : (appendInput v s).input = s.input ++ [v] := rfl
@[simp] theorem appendInput_inPos (v : Byte) (s : State) : (appendInput v s).inPos = s.inPos := rfl
@[simp] theorem appendInput_out (v : Byte) (s : State) : (appendInput v s).out = s.out := rfl
@[simp] theorem appendInput_diag (v : Byte) (s : State) : (appendInput v s).diag = s.diag := rfl
@[simp] theorem appendInput_loaded (v : Byte) (s : State) : (appendInput v s).loaded = s.loaded := rfl

@[simp] theorem writeReg_a_a (s : State) (v : Byte) : (writeReg s .a v).a = v := rfl
@[simp] theorem writeReg_a_b (s : State) (v : Byte) : (writeReg s .a v).b = s.b := rfl
@[simp] theorem writeReg_b_a (s : State) (v : Byte) : (writeReg s .b v).a = s.a := rfl
@[simp] theorem writeReg_b_b (s : State) (v : Byte) : (writeReg s .b v).b = v := rfl
@[simp] theorem writeReg_pc (s : State) (r : Reg) (v : Byte) : (writeReg s r v).pc = s.pc := by cases r <;> rfl
@[simp] theorem writeReg_flags (s : State) (r : Reg) (v : Byte) : (writeReg s r v).flags = s.flags := by cases r <;> rfl
@[simp] theorem writeReg_mem (s : State) (r : Reg) (v : Byte) : (writeReg s r v).mem = s.mem := by cases r <;> rfl
@[simp] theorem writeReg_running (s : State) (r : Reg) (v : Byte) : (writeReg s r v).running = s.running := by cases r <;> rfl
@[simp] theorem writeReg_fault (s : State) (r : Reg) (v : Byte) : (writeReg s r v).fault = s.fault := by cases r <;> rfl
@[simp] theorem writeReg_input (s : State) (r : Reg) (v : Byte) : (writeReg s r v).input = s.input := by cases r <;> rfl
@[simp] theorem writeReg_inPos (s : State) (r : Reg) (v : Byte) : (writeReg s r v).inPos = s.inPos := by cases r <;> rfl
@[simp] theorem writeReg_out (s : State) (r : Reg) (v : Byte) : (writeReg s r v).out = s.out := by cases r <;> rfl
@[simp] theorem writeReg_diag (s : State) (r : Reg) (v : Byte) : (writeReg s r v).diag = s.diag := by cases r <;> rfl
@[simp] theorem writeReg_loaded (s : State) (r : Reg) (v : Byte) : (writeReg s r v).loaded = s.loaded := by cases r <;> rfl

@[simp] theorem readMem_eq (s : State) (x : Byte) : readMem s x = s.mem.read x := rfl

/-- The two registers are separate fields: a read sees the last write to the same register and no other (10_state.md R10). -/
theorem readReg_writeReg (s : State) (r q : Reg) (v : Byte) :
    readReg (writeReg s r v) q = if q = r then v else readReg s q := by
  cases r <;> cases q <;> simp [readReg]

end Sys2Proof.Machine
end

