-- ==== Sys2Proof/Laws/Ops.lean ====
section
/-! SUPPORT. One lemma for each shared operation that says everything it can do: fetching, popping input, selecting a register,
the address check, the jump, every meaning, the tick, and the step. -/

namespace Sys2Proof.Machine

/-- The state after `n` fetches: `pc` past the bytes, nothing else changed. -/
theorem fetchMany_state (n : Nat) (s : State) : (fetchMany n s).2 = advance n s := by
  induction n generalizing s with
  | zero => simp [fetchMany, advance]
  | succ n ih =>
    simp only [fetchMany, ih, fetch, advance]
    congr 1
    rw [BitVec.add_assoc, BitVec.add_comm 1, BitVec.ofNat_add]
    rfl

/-- The bytes the longest instruction at `pc` would take. -/
theorem codeWindow_eq (s : State) :
    codeWindow s = [s.mem.read s.pc, s.mem.read (s.pc + 1), s.mem.read (s.pc + 2)] := by
  have : s.pc + 1 + 1 = s.pc + 2 := by rw [BitVec.add_assoc]; rfl
  rw [← this]
  rfl

/-- The address check passes for every byte (20_memory.md R47). -/
@[simp] theorem addressCheck_passes (addr : Byte) : addressCheck addr = true := by
  exact decide_eq_true addr.isLt

/-- Popping input: nothing while In is empty, else the head, with the position advanced by one. -/
theorem popInput_cases (s : State) :
    (s.input = [] ∧ popInput s = none) ∨
      ∃ v rest, s.input = v :: rest ∧ popInput s = some (v, { s with input := rest, inPos := s.inPos + 1 }) := by
  cases h : s.input with
  | nil => exact .inl ⟨rfl, by simp [popInput, h]⟩
  | cons v rest => exact .inr ⟨v, rest, rfl, by simp [popInput, h]⟩

/-- A selector is 1 and selects A, or is 2 and selects B, or selects nothing (43_memory_access.md R152). -/
theorem selectedReg_cases (sel : Byte) :
    (sel = 1 ∧ selectedReg sel = some .a) ∨ (sel = 2 ∧ selectedReg sel = some .b) ∨
      (sel ≠ 1 ∧ sel ≠ 2 ∧ selectedReg sel = none) := by
  by_cases h1 : sel = 1
  · exact .inl ⟨h1, by rw [h1]; rfl⟩
  · by_cases h2 : sel = 2
    · exact .inr (.inl ⟨h2, by rw [h2]; rfl⟩)
    · exact .inr (.inr ⟨h1, h2, by rw [selectedReg, if_neg h1, if_neg h2]⟩)

/-- What `STA` answers: its failing arm is never taken. -/
theorem execSta_eq (addr : Byte) (s : State) : execSta addr s = .next (writeMem (advance 2 s) addr s.a) := by
  simp [execSta, effectiveAddress]

/-- What `LDM` answers: its failing arm is never taken. -/
theorem execLdm_eq (addr : Byte) (s : State) : execLdm addr s = .next (writeReg (advance 2 s) .a (s.mem.read addr)) := by
  simp [execLdm, effectiveAddress]

/-- What `INP` answers: a hold, or one value stored. -/
theorem execInp_cases (addr : Byte) (s : State) :
    (s.input = [] ∧ execInp addr s = .next s) ∨
      ∃ v rest, s.input = v :: rest ∧
        execInp addr s = .next (writeMem { advance 2 s with input := rest, inPos := s.inPos + 1 } addr v) := by
  rcases popInput_cases (advance 2 s) with ⟨h, hp⟩ | ⟨v, rest, h, hp⟩
  · exact .inl ⟨h, by simp [execInp, hp]⟩
  · exact .inr ⟨v, rest, h, by simp [execInp, hp, effectiveAddress]⟩

/-- What `LD` answers, by its selector. -/
theorem execLd_cases (sel addr : Byte) (s : State) :
    (sel = 1 ∧ execLd sel addr s = .next (writeReg (advance 3 s) .a (s.mem.read addr))) ∨
      (sel = 2 ∧ execLd sel addr s = .next (writeReg (advance 3 s) .b (s.mem.read addr))) ∨
      (sel ≠ 1 ∧ sel ≠ 2 ∧ execLd sel addr s = .next (pushDiag (advance 3 s) (.badRegisterSelector sel))) := by
  rcases selectedReg_cases sel with ⟨h, hr⟩ | ⟨h, hr⟩ | ⟨h1, h2, hr⟩
  · exact .inl ⟨h, by simp [execLd, hr, effectiveAddress]⟩
  · exact .inr (.inl ⟨h, by simp [execLd, hr, effectiveAddress]⟩)
  · exact .inr (.inr ⟨h1, h2, by simp [execLd, hr]⟩)

/-- What `DIV` answers. -/
theorem execDiv_cases (s : State) :
    (s.b = 0 ∧ execDiv s = .next (writeFlag (advance 1 s) .dz true)) ∨
      (s.b ≠ 0 ∧ execDiv s =
        .next (writeFlag (writeReg (advance 1 s) .a (BitVec.ofNat 8 (s.a.toNat / s.b.toNat))) .dz false)) := by
  by_cases h : s.b = 0
  · exact .inl ⟨h, if_pos h⟩
  · exact .inr ⟨h, if_neg h⟩

/-- What the two jumps do to `pc`: they write nothing else (45_control.md R183, R184). -/
theorem jumpIf_eq (taken : Bool) (addr : Byte) (s : State) :
    jumpIf taken addr s = { s with pc := if taken then addr else s.pc + 2 } := by
  cases taken <;> rfl

/-- No instruction faults or is refused. -/
theorem exec_next (i : Instr) (s : State) : ∃ t, exec i s = .next t := by
  cases i with
  | sta addr => exact ⟨_, execSta_eq addr s⟩
  | ldm addr => exact ⟨_, execLdm_eq addr s⟩
  | inp addr => rcases execInp_cases addr s with ⟨_, h⟩ | ⟨_, _, _, h⟩ <;> exact ⟨_, h⟩
  | ld sel addr => rcases execLd_cases sel addr s with ⟨_, h⟩ | ⟨_, h⟩ | ⟨_, _, h⟩ <;> exact ⟨_, h⟩
  | div => rcases execDiv_cases s with ⟨_, h⟩ | ⟨_, h⟩ <;> exact ⟨_, h⟩
  | _ => exact ⟨_, rfl⟩

/-- An instruction that waits for input is an `INP` that finds In empty (44_io.md R172). -/
theorem waitsForInput_iff (i : Instr) (s : State) : waitsForInput i s = true ↔ (∃ addr, i = .inp addr) ∧ s.input = [] := by
  cases i <;> simp [waitsForInput]

/-- Everything a tick can do (00_scope.md R8): hold, execute the decoded instruction, or fault. -/
theorem tick_cases (opc : Mnemonic → Byte) (s : State) :
    (∃ addr rest, fetchDecode opc s = .ok (.inp addr) rest ∧ s.input = [] ∧ tick opc s = .hold) ∨
      (∃ i rest t, fetchDecode opc s = .ok i rest ∧ waitsForInput i s = false ∧ exec i s = .next t ∧
        tick opc s = .next t) ∨
      ((∃ e, fetchDecode opc s = .bad e) ∧
        tick opc s = .fault (.illegalOpcode (s.mem.read s.pc) s.pc (faultedBy s (s.mem.read s.pc)))) := by
  cases hd : fetchDecode opc s with
  | ok i rest =>
    cases hw : waitsForInput i s with
    | true =>
      obtain ⟨⟨addr, rfl⟩, hi⟩ := (waitsForInput_iff i s).1 hw
      exact .inl ⟨addr, rest, rfl, hi, by simp [tick, hd, hw]⟩
    | false =>
      obtain ⟨t, ht⟩ := exec_next i s
      exact .inr (.inl ⟨i, rest, t, rfl, hw, ht, by simp [tick, hd, hw, ht, madeTick]⟩)
  | bad e => exact .inr (.inr ⟨⟨e, rfl⟩, by simp [tick, hd, madeTick, raiseIllegalOpcode, readMem]⟩)

/-- A tick is enabled when the run goes on and the tick is no hold (40_tick_and_dispatch.md R100). -/
theorem canTick_iff (opc : Mnemonic → Byte) (s : State) :
    canTick opc s = true ↔ s.running = true ∧ s.fault = none ∧ tick opc s ≠ .hold := by
  rcases tick_cases opc s with ⟨addr, _, hd, hi, ht⟩ | ⟨_, _, _, hd, hw, _, ht⟩ | ⟨⟨_, hd⟩, ht⟩
  · simp [canTick, hd, ht, hi, waitsForInput]
  · simp [canTick, hd, ht, hw]
  · simp [canTick, hd, ht]

/-- What a step shows of a tick that decodes an instruction is that instruction's execution; a hold leaves the state, and so does
`INP` without input. -/
theorem stepOutcome_tick {opc : Mnemonic → Byte} {s : State} {i : Instr} {rest : List Byte}
    (hd : fetchDecode opc s = .ok i rest) : stepOutcome s (tick opc s) = exec i s := by
  rcases tick_cases opc s with ⟨addr, _, hd', hi, ht⟩ | ⟨_, _, _, hd', _, he, ht⟩ | ⟨⟨_, hd'⟩, _⟩ <;>
    rw [hd] at hd' <;> cases hd'
  · rcases execInp_cases addr s with ⟨_, h⟩ | ⟨_, _, h, _⟩
    · rw [ht]; exact h.symm
    · rw [hi] at h; cases h
  · rw [ht, he]; rfl

/-- Everything a step can do: a final fault, no tick, the decoded instruction, or the fault of an illegal opcode. -/
theorem step_cases (s : State) :
    (∃ op addr, s.fault = some (.illegalOpcode op addr) ∧ step s = .fault (.illegalOpcode op addr s)) ∨
      (s.fault = none ∧ s.running = false ∧ step s = .next s) ∨
      (s.fault = none ∧ s.running = true ∧ ∃ i rest, fetchDecode opcodeOf s = .ok i rest ∧ step s = exec i s) ∨
      (s.fault = none ∧ s.running = true ∧ (∃ e, fetchDecode opcodeOf s = .bad e) ∧
        step s = .fault (.illegalOpcode (s.mem.read s.pc) s.pc (faultedBy s (s.mem.read s.pc)))) := by
  unfold step tickIfEnabled
  cases hf : s.fault with
  | some r => cases r with | illegalOpcode op addr => exact .inl ⟨op, addr, rfl, rfl⟩
  | none =>
    cases hr : s.running with
    | false => exact .inr (.inl ⟨rfl, rfl, by simp⟩)
    | true =>
      cases hd : fetchDecode opcodeOf s with
      | ok i rest => exact .inr (.inr (.inl ⟨rfl, rfl, i, rest, rfl, by simpa using stepOutcome_tick hd⟩))
      | bad e =>
        exact .inr (.inr (.inr ⟨rfl, rfl, ⟨e, rfl⟩, by simp [tick, hd, madeTick, stepOutcome, raiseIllegalOpcode]⟩))

/-- A step to a next state is a state kept because no tick is enabled, or the decoded instruction. -/
theorem step_next {s t : State} (h : step s = .next t) :
    (s.fault = none ∧ s.running = false ∧ t = s) ∨
      (s.fault = none ∧ s.running = true ∧ ∃ i rest, fetchDecode opcodeOf s = .ok i rest ∧ exec i s = .next t) := by
  rcases step_cases s with ⟨_, _, _, h'⟩ | ⟨hf, hr, h'⟩ | ⟨hf, hr, i, rest, hd, h'⟩ | ⟨_, _, _, h'⟩
  · rw [h] at h'; cases h'
  · rw [h] at h'; injection h' with h'; exact .inl ⟨hf, hr, h'⟩
  · exact .inr ⟨hf, hr, i, rest, hd, h'.symm.trans h⟩
  · rw [h] at h'; cases h'

end Sys2Proof.Machine
end

