-- ==== Sys2Proof/Laws/PerInstr.lean ====
section
/-! SUPPORT. What holds of every instruction as syntax, one lemma per constructor: it is well formed, and its encoding is the
opcode byte and its operands, one to three bytes (spec/30_encoding.md R70). -/

namespace Sys2Proof.Laws.EncodeShape

/-- The encoding of `i` is its opcode and as many bytes as its mnemonic consumes, and no longer than the longest instruction. -/
def Statement (i : Instr) : Prop :=
  i.wf = true ∧ (encode i).length = lengthOf i ∧ (encode i).head? = some (opcodeOf (mnemonicOf i)) ∧ lengthOf i ≤ maxLength

theorem lda (imm : Byte) : Statement (.lda imm) := ⟨rfl, rfl, rfl, lengthOf_le _⟩
theorem ldb (imm : Byte) : Statement (.ldb imm) := ⟨rfl, rfl, rfl, lengthOf_le _⟩
theorem add : Statement .add := ⟨rfl, rfl, rfl, lengthOf_le _⟩
theorem sub : Statement .sub := ⟨rfl, rfl, rfl, lengthOf_le _⟩
theorem outv (addr : Byte) : Statement (.outv addr) := ⟨rfl, rfl, rfl, lengthOf_le _⟩
theorem sta (addr : Byte) : Statement (.sta addr) := ⟨rfl, rfl, rfl, lengthOf_le _⟩
theorem ldm (addr : Byte) : Statement (.ldm addr) := ⟨rfl, rfl, rfl, lengthOf_le _⟩
theorem jez (addr : Byte) : Statement (.jez addr) := ⟨rfl, rfl, rfl, lengthOf_le _⟩
theorem jnz (addr : Byte) : Statement (.jnz addr) := ⟨rfl, rfl, rfl, lengthOf_le _⟩
theorem mul : Statement .mul := ⟨rfl, rfl, rfl, lengthOf_le _⟩
theorem div : Statement .div := ⟨rfl, rfl, rfl, lengthOf_le _⟩
theorem inp (addr : Byte) : Statement (.inp addr) := ⟨rfl, rfl, rfl, lengthOf_le _⟩
theorem ld (sel addr : Byte) : Statement (.ld sel addr) := ⟨rfl, rfl, rfl, lengthOf_le _⟩
theorem hlt : Statement .hlt := ⟨rfl, rfl, rfl, lengthOf_le _⟩

end Sys2Proof.Laws.EncodeShape
end

