-- ==== Sys2Proof/Tests/Slice0.lean ====
section
/-! SUPPORT. Tests of the model against the spec's own words and vectors (spec/95_test_vectors.md), the smoke tests of the
well-formedness checks, and a witness for each statement that has hypotheses. -/

namespace Sys2Proof.Tests

open Sys2Proof.Machine

/-! ## Well-formedness: each check accepts a good term and refuses an ill-formed one -/

theorem test_opcodeMap_wf : opcodeMapWf opcodeOf = true := by decide

theorem test_opcodeMap_refuses_shared_byte :
    opcodeMapWf (fun m => if m = .sub then 0x03 else opcodeOf m) = false := by decide

theorem test_opcodeMap_refuses_other_hlt :
    opcodeMapWf (fun m => if m = .hlt then 0xFE else opcodeOf m) = false := by decide

theorem test_progSize_wf : progSizeWf 1 = true ∧ progSizeWf 256 = true := by decide

theorem test_progSize_refuses : progSizeWf 0 = false ∧ progSizeWf 257 = false := by decide

theorem test_arity : arityOk .ld 2 = true ∧ arityOk .ld 1 = false ∧ arityOk .add 1 = false := by decide

theorem test_instr_wf : (Instr.ld 3 255).wf = true := by decide

theorem test_instrBytes : isInstrBytes [0x0D, 0x01, 0xC9] = true ∧ isInstrBytes [0x0D, 0x01] = false ∧
    isInstrBytes [0x03, 0x07] = false ∧ isInstrBytes [0x00] = false := by decide

theorem test_memory_wf : Memory.wf [(0, 1), (255, 2)] = true := by decide

theorem test_memory_refuses : Memory.wf [(5, 1), (5, 2)] = false ∧ Memory.wf [(5, 0)] = false ∧
    Memory.wf [(256, 1)] = false := by decide

/-! ## Decoding: each row's word, written out bit by bit from 30_encoding.md R71 to R74 -/

theorem test_decode_lda : decode [0b00000001, 0b00000101] = .ok (.lda 5) [] := by decide
theorem test_decode_ldb : decode [0b00000010, 0b00000011] = .ok (.ldb 3) [] := by decide
theorem test_decode_add : decode [0b00000011] = .ok .add [] := by decide
theorem test_decode_sub : decode [0b00000100] = .ok .sub [] := by decide
theorem test_decode_outv : decode [0b00000101, 0b11001000] = .ok (.outv 200) [] := by decide
theorem test_decode_sta : decode [0b00000110, 0b11001000] = .ok (.sta 200) [] := by decide
theorem test_decode_ldm : decode [0b00000111, 0b11111111] = .ok (.ldm 255) [] := by decide
theorem test_decode_jez : decode [0b00001000, 0b00001001] = .ok (.jez 9) [] := by decide
theorem test_decode_jnz : decode [0b00001001, 0b00000010] = .ok (.jnz 2) [] := by decide
theorem test_decode_mul : decode [0b00001010] = .ok .mul [] := by decide
theorem test_decode_div : decode [0b00001011] = .ok .div [] := by decide
theorem test_decode_inp : decode [0b00001100, 0b11110000] = .ok (.inp 240) [] := by decide
/-- The selector comes before the address (R73). -/
theorem test_decode_ld : decode [0b00001101, 0b00000010, 0b11001001] = .ok (.ld 2 201) [] := by decide
theorem test_decode_hlt : decode [0b11111111] = .ok .hlt [] := by decide

/-- R78: 0x00, 0x0E and 0xFE are no opcodes. -/
theorem test_decode_illegal : decode [0x00] = .bad (.illegalOpcode 0x00) ∧ decode [0x0E] = .bad (.illegalOpcode 0x0E) ∧
    decode [0xFE] = .bad (.illegalOpcode 0xFE) := by decide

/-- The source's round-trip bytes (30_encoding.md R84). -/
theorem test_encode_roundtrip :
    ([.lda 5, .ldb 3, .add, .hlt] : List Instr).flatMap encode = [0x01, 0x05, 0x02, 0x03, 0x03, 0xFF] := by decide

/-- The table's numbering: the second byte is bits 15 to 8, the third bits 23 to 16. -/
theorem test_tableWord : decodeTableWord 24 0xC9020D = some (.ld 2 0xC9) ∧ decodeTableWord 8 0x0D = some (.ld 0 0) ∧
    decodeTableWord 16 0x0501 = some (.lda 5) ∧ decodeTableWord 8 0x00 = none := by decide

/-! ## One step of each instruction (95_test_vectors.md §2.1 to §2.6) -/

/-- A state that runs `code` at address `pc`, everything else as after reset. -/
def atPc (pc : Byte) (code : List Byte) : State := startRunning (placeCode { State.reset with pc := pc } code)

/-- A check of the next state. -/
def nextIs (s : State) (check : State → Bool) : Bool :=
  match step s with
  | .next t => check t
  | .fault _ => false
  | .refused _ => false

theorem test_lda_zero_keeps_flags :
    nextIs { atPc 0 [0x01, 0x00] with a := 9, flags := 0x02 } (fun t => t.a = 0 ∧ t.flags = 0x02 ∧ t.pc = 2) = true := by
  decide
theorem test_lda_ff_is_no_halt : nextIs (atPc 0 [0x01, 0xFF]) (fun t => t.a = 255 ∧ t.running = true) = true := by decide
/-- The operand fetch wraps: opcode at 255, operand at 0. -/
theorem test_ldb_wraps : nextIs (atPc 255 [0x02, 0x01]) (fun t => t.b = 1 ∧ t.a = 0 ∧ t.pc = 1) = true := by decide
theorem test_add_overflow :
    nextIs { atPc 0 [0x03] with a := 200, b := 100 } (fun t => t.a = 44 ∧ t.b = 100 ∧ t.flags = 0x04 ∧ t.pc = 1) = true := by
  decide
theorem test_add_256_is_zero :
    nextIs { atPc 0 [0x03] with a := 128, b := 128, flags := 0xF9 } (fun t => t.a = 0 ∧ t.flags = 0xFF) = true := by decide
/-- The other reading of D6: Z = 0 for an unbounded result of 256. -/
theorem test_zeroRule_readings : zeroRule true 256 = true ∧ zeroRule false 256 = false ∧ zeroRule false 0 = true := by decide
theorem test_sub_borrow :
    nextIs { atPc 0 [0x04] with a := 2, b := 3, flags := 0x0F } (fun t => t.a = 255 ∧ t.flags = 0x0D) = true := by decide
theorem test_sub_equal : nextIs { atPc 0 [0x04] with a := 7, b := 7 } (fun t => t.a = 0 ∧ t.flags = 0x02) = true := by decide
theorem test_mul_low_byte :
    nextIs { atPc 0 [0x0A] with a := 255, b := 255 } (fun t => t.a = 1 ∧ t.flags = 0x04) = true := by decide
theorem test_mul_256 :
    nextIs { atPc 0 [0x0A] with a := 16, b := 16, flags := 0xFF } (fun t => t.a = 0 ∧ t.flags = 0xFF) = true := by decide
theorem test_div_floor :
    nextIs { atPc 0 [0x0B] with a := 255, b := 2, flags := 0x0F } (fun t => t.a = 127 ∧ t.flags = 0x07) = true := by decide
theorem test_div_by_zero :
    nextIs { atPc 0 [0x0B] with a := 10, b := 0 } (fun t => t.a = 10 ∧ t.flags = 0x08 ∧ t.pc = 1) = true := by decide
/-- STA 0 overwrites its own opcode byte after executing. -/
theorem test_sta_own_byte :
    nextIs { atPc 0 [0x06, 0x00] with a := 255 } (fun t => t.mem.read 0 = 0xFF ∧ t.mem.read 1 = 0 ∧ t.pc = 2) = true := by decide
/-- Storing 0 removes the cell: the memory stays canonical. -/
theorem test_sta_zero : nextIs (atPc 0 [0x06, 0x00]) (fun t => t.mem = []) = true := by decide
theorem test_ldm_own_opcode : nextIs { atPc 0 [0x07, 0x00] with a := 9 } (fun t => t.a = 7 ∧ t.flags = 0) = true := by decide
/-- LD straddles the top of memory. -/
theorem test_ld_wraps :
    nextIs { atPc 254 [0x0D, 0x02, 0x07] with a := 9 } (fun t => t.b = 0 ∧ t.a = 9 ∧ t.pc = 1 ∧ t.diag = []) = true := by decide
theorem test_ld_bad_selector :
    nextIs { atPc 0 [0x0D, 0x03, 0x00] with a := 1, b := 2 }
      (fun t => t.a = 1 ∧ t.b = 2 ∧ t.pc = 3 ∧ t.diag = [.badRegisterSelector 3] ∧ t.running = true) = true := by decide
theorem test_outv_own_opcode : nextIs (atPc 0 [0x05, 0x00]) (fun t => t.out = [0x05] ∧ t.pc = 2) = true := by decide
theorem test_inp_takes_head :
    nextIs { atPc 0 [0x0C, 0xC8] with input := [7, 9] }
      (fun t => t.mem.read 200 = 7 ∧ t.input = [9] ∧ t.inPos = 1 ∧ t.pc = 2) = true := by decide
theorem test_inp_holds : nextIs (atPc 0 [0x0C, 0xC8]) (fun t => t = atPc 0 [0x0C, 0xC8]) = true := by decide
/-- 00_scope.md R8, 44_io.md R172: INP without input is a hold, not enabled; a jump to itself is a tick that is made. -/
theorem test_hold_is_no_tick :
    tick opcodeOf (atPc 0 [0x0C, 0xC8]) = .hold ∧ canTick opcodeOf (atPc 0 [0x0C, 0xC8]) = false ∧
    canTick opcodeOf (appendInput 5 (atPc 0 [0x0C, 0xC8])) = true ∧
    tick opcodeOf (atPc 0 [0x09, 0x00]) = .next (atPc 0 [0x09, 0x00]) ∧ canTick opcodeOf (atPc 0 [0x09, 0x00]) = true := by
  decide
theorem test_jez_only_bit1 : nextIs { atPc 0 [0x08, 0x05] with flags := 0xFD } (fun t => t.pc = 2) = true := by decide
theorem test_jez_taken : nextIs { atPc 4 [0x08, 0x09] with flags := 0x02 } (fun t => t.pc = 9) = true := by decide
theorem test_jnz_self : nextIs (atPc 0 [0x09, 0x00]) (fun t => t = atPc 0 [0x09, 0x00]) = true := by decide
theorem test_jnz_not_taken : nextIs { atPc 6 [0x09, 0x02] with flags := 0x02 } (fun t => t.pc = 8) = true := by decide
theorem test_hlt_wraps : nextIs (atPc 255 [0xFF]) (fun t => t.running = false ∧ t.pc = 0) = true := by decide
theorem test_hlt_status :
    nextIs { atPc 5 [0xFF] with a := 8 } (fun t => statusOf t = some .halted ∧ t.a = 8 ∧ t.pc = 6 ∧ nextIs t (· = t)) = true := by
  decide

/-- R78: the fault names the byte and its address and leaves `pc` past it. -/
theorem test_illegal_opcode :
    step (atPc 0 [0xFE]) = .fault (.illegalOpcode 0xFE 0
      { atPc 0 [0xFE] with pc := 1, fault := some (.illegalOpcode 0xFE 0) }) := rfl

/-! ## Load (95_test_vectors.md §2.6) -/

/-- A program region of two bytes. -/
def twoBytes : Config.ProgSize := ⟨2, by decide, by decide⟩

theorem test_load_exact_fit :
    (startRun twoBytes [0x01, 0x05]).map (fun t => (t.mem, t.running, statusOf t)) =
      some ([(0, 1), (1, 5)], true, some .running) := by decide
theorem test_load_refused :
    (startRun twoBytes [0x01, 0x05, 0xFF]).map (fun t => (t.mem, t.running, statusOf t)) =
      some ([], false, some .loadRefused) := by decide
theorem test_load_empty : (startRun twoBytes []).map (fun t => nextIs t (fun _ => true)) = some false := by decide
/-- Before a load no tick happens; `withFetchWord` starts the run. -/
theorem test_reset_waits : nextIs State.reset (fun t => t = State.reset) = true := by decide
theorem test_withFetchWord : nextIs (State.reset.withFetchWord 16 0x0501) (fun t => t.a = 5 ∧ t.pc = 2) = true := by decide

/-! ## Encoder (95_test_vectors.md §2.7) -/

/-- The bytes of a text. -/
def text (s : String) : List Byte := s.toList.map fun c => BitVec.ofNat 8 c.toNat

/-- Lines, each ended by a line feed. -/
def source (ls : List String) : List Byte := ls.flatMap fun l => text l ++ [lineFeed]

theorem test_spelling :
    Mnemonic.all.map spelling = ["LDA", "LDB", "ADD", "SUB", "OUTV", "STA", "LDM", "JEZ", "JNZ", "MUL", "DIV", "INP", "LD",
      "HLT"].map text := by decide
/-- S1, the source's round-trip, its last line without a line feed. -/
theorem test_asm_roundtrip :
    assemble 32767 (source ["LDA 5", "LDB 3", "ADD"] ++ text "HLT") = .ok [0x01, 0x05, 0x02, 0x03, 0x03, 0xFF] := by decide
/-- E1: a forward and a backward reference. -/
theorem test_asm_labels :
    assemble 32767 (source ["start:", "LDA 1", "JNZ end", "JEZ start", "end:", "HLT"]) =
      .ok [0x01, 0x01, 0x09, 0x06, 0x08, 0x00, 0xFF] := by decide
/-- E2, E3: comments, blanks, tabs, carriage returns. -/
theorem test_asm_lexical :
    assemble 32767 (source ["; header", "", "LDA 5;five", "  LDB\t3  ; three", "ADD ;x\r", "HLT\r"]) =
      .ok [0x01, 0x05, 0x02, 0x03, 0x03, 0xFF] := by decide
/-- E4: an unknown mnemonic is counted by pass 1 and not emitted. -/
theorem test_asm_unknown_mnemonic :
    assemble 32767 (source ["LDA 1", "NOP 1 2", "here:", "JNZ here", "HLT"]) = .ok [0x01, 0x01, 0x09, 0x05, 0xFF] := by decide
/-- E5, E6: a lower-case mnemonic and an instruction after a label emit nothing. -/
theorem test_asm_dropped_lines :
    assemble 32767 (source ["lda 5", "loop: LDA 5", "HLT"]) = .ok [0xFF] := by decide
/-- E7: the literal forms, reduced modulo 256. -/
theorem test_asm_literals :
    assemble 32767 (source ["LDA 0x0A", "LDA 10", "LDA 010", "LDA 0", "LDA 256", "LDA 300", "LDA 0x1FF", "LDA 0377",
      "LDA 0XfF", "LDA 255"]) =
      .ok [1, 0x0A, 1, 0x0A, 1, 8, 1, 0, 1, 0, 1, 0x2C, 1, 0xFF, 1, 0xFF, 1, 0xFF, 1, 0xFF] := by decide
/-- E8, E15: a label shadows a literal, and may be spelt like a mnemonic. -/
theorem test_asm_label_shadows :
    assemble 32767 (source ["LDA 1", "10:", "LDA 10", "HLT"]) = .ok [0x01, 0x01, 0x01, 0x02, 0xFF] ∧
    assemble 32767 (source ["HLT:", "JNZ HLT", "HLT"]) = .ok [0x09, 0x00, 0xFF] := by decide
/-- E9, E10: a bad operand aborts, but not on a line that is skipped. -/
theorem test_asm_bad_operand :
    assemble 32767 (source ["LDA 5", "JNZ nowhere", "HLT"]) = .fail (.badOperand 2 (text "nowhere")) ∧
    assemble 32767 (source ["FOO bar", "HLT"]) = .ok [0xFF] := by decide
/-- E11, E12: no byte, no output. -/
theorem test_asm_empty :
    assemble 32767 [] = .fail .emptyOutput ∧ assemble 32767 (source ["; a", "x:"]) = .fail .emptyOutput := by decide
/-- E14: one byte for each token, no arity check. -/
theorem test_asm_no_arity :
    assemble 32767 (source ["LDA", "ADD 7 8", "LD 1", "HLT 0xFF"]) = .ok [1, 3, 7, 8, 0x0D, 1, 0xFF, 0xFF] := by decide
/-- E17, E18 and U10: what the spec does not admit is refused. -/
theorem test_asm_refused :
    assemble 32767 (source ["LDA -1"]) = .refused (.unsettledLiteral 1 (text "-1")) ∧
    assemble 32767 (source ["LDA 08"]) = .refused (.unsettledLiteral 1 (text "08")) ∧
    assemble 32767 (source ["a:", "LDA 1", "a:", "HLT"]) = .refused .duplicateLabel := by decide
theorem test_asm_report : bytesWritten (assemble 32767 (source ["LDA 5", "HLT"])) = some 3 := by decide

/-! ## Witnesses: for each statement with hypotheses, a state and operands that meet them -/

/-- The run goes on after a load. -/
theorem witness_Live : Live (atPc 0 [0x03]) := ⟨rfl, rfl⟩

theorem witness_ArithmeticResultModulo256 :
    (∃ t, exec .add (atPc 0 [0x03]) = .next t) ∧ ∃ t, exec .add { atPc 0 [0x03] with flags := 0xFF } = .next t :=
  ⟨⟨_, rfl⟩, ⟨_, rfl⟩⟩

/-- The unbounded results 510, -255 and 65025, at the ends of their ranges. -/
theorem witness_RawResult :
    RawResult { State.reset with a := 255, b := 255 } .add 510 ∧ RawResult { State.reset with b := 255 } .sub (-255) ∧
    RawResult { State.reset with a := 255, b := 255 } .mul 65025 := ⟨.add, .sub, .mul⟩

/-- In-range results at both ends, 0 and 255, for the clause in which the flag is cleared. -/
theorem witness_RawResult_in_range :
    RawResult State.reset .sub 0 ∧ RawResult { State.reset with a := 1, b := 254 } .add 255 := ⟨.sub, .add⟩

theorem witness_AddSubMulFrame : Instr.mul ∈ [Instr.add, Instr.sub, Instr.mul] := by decide

theorem witness_DivGivesQuotient : ({ State.reset with a := 255, b := 1 } : State).b ≠ 0 := by decide

theorem witness_DivideByZero : State.reset.b = 0 := rfl

theorem witness_DivideByZero_cleared :
    ∃ t, step { atPc 0 [0x0B] with a := 6, b := 3, flags := 0xFF } = .next t ∧ flagAt (0xFF : Byte) 3 = true ∧
      flagAt t.flags 3 = false := ⟨_, rfl, by decide, by decide⟩

theorem witness_canonical_memory : (atPc 255 [0x06, 0xFF]).mem.wf = true := by decide

theorem witness_BadSelector : ∀ sel ∈ [(0 : Byte), 3, 255], sel ≠ 1 ∧ sel ≠ 2 := by decide

theorem witness_StoresAreSeenByTheNextFetch :
    (∃ t, exec (.sta 2) { atPc 0 [0x06, 0x02] with a := 0xFF } = .next t ∧
      ({ t with pc := 2 } : State).mem = t.mem ∧ ({ t with pc := 2 } : State).pc = effectiveAddress 2) ∧
    ∃ t, exec (.inp 2) { atPc 0 [0x0C, 0x02] with input := [0xFF] } = .next t ∧
      ({ t with pc := 2 } : State).mem = t.mem ∧ ({ t with pc := 2 } : State).pc = effectiveAddress 2 :=
  ⟨⟨_, rfl, rfl, rfl⟩, ⟨_, rfl, rfl, rfl⟩⟩

theorem witness_InpStoresTheNextInput :
    ({ atPc 0 [0x0C, 0xFF] with input := [7] } : State).mem.wf = true ∧
    ({ atPc 0 [0x0C, 0xFF] with input := [7] } : State).input = 7 :: [] := by decide

theorem witness_InpHoldsUntilInputArrives :
    ((atPc 0 [0x0C, 0xC8]).mem.wf = true ∧ (atPc 0 [0x0C, 0xC8]).input = []) ∧
      Live (atPc 0 [0x0C, 0xC8]) ∧ fetchDecode opcodeOf (atPc 0 [0x0C, 0xC8]) = .ok (.inp 0xC8) [0] := by decide

/-- A hold, an arrival, the tick it lets run, and a late arrival. -/
theorem witness_ArrivalTimesAreUnobservable :
    (runEvents [.tick, .arrive 5, .tick, .arrive 6] (atPc 0 [0x0C, 0xC8])).isSome = true := by decide

/-- Ticks and arrivals in two orders, the second input value arriving before or after the first is taken. -/
theorem witness_TicksDoNotDependOnArrivalTimes :
    (runTicks [.arrive 5, .tick, .arrive 6, .tick] (atPc 0 [0x0C, 0xC8, 0x0C, 0xC9])).isSome = true ∧
    (runTicks [.arrive 5, .arrive 6, .tick, .tick] (atPc 0 [0x0C, 0xC8, 0x0C, 0xC9])).isSome = true := by decide

theorem witness_exec_next : ∃ t, exec (.jez 0) (atPc 254 [0x08, 0x00]) = .next t := ⟨_, rfl⟩

theorem witness_exec_hold : exec (.inp 0) State.reset = .next State.reset := rfl

theorem witness_HltEndsTheRun :
    State.reset.fault = none ∧ (atPc 0 [0xFF]).loaded = .loaded ∧
      ∃ t, exec .hlt (atPc 0 [0xFF]) = .next t ∧ ∃ u, step t = .next u := ⟨rfl, rfl, _, rfl, _, rfl⟩

theorem witness_RunningIsClearedOnlyByHlt :
    (∃ t, step State.reset = .next t ∧ State.reset.running = false) ∧
    (∃ t, step (atPc 0 [0xFF]) = .next t ∧ (atPc 0 [0xFF]).running = true ∧ t.running = false) ∧
    (∃ left, FaultLeaves (step (atPc 0 [0x0E])) left) ∧
    (∃ t, startRun twoBytes [0x01, 0x05] = some t ∧ ([0x01, 0x05] : List Byte).length ≤ twoBytes.size) ∧
    (∃ t, exec (.lda 1) State.reset = .next t ∧ Instr.lda 1 ≠ .hlt) ∧ ∃ t, exec .hlt State.reset = .next t :=
  ⟨⟨_, rfl, rfl⟩, ⟨_, rfl, rfl, rfl⟩, ⟨_, _, _, rfl⟩, ⟨_, rfl, by decide⟩, ⟨_, rfl, by decide⟩, ⟨_, rfl⟩⟩

/-- At the top of memory, where the operand bytes wrap to addresses 0 and 1. -/
theorem witness_StepRunsTheDecodedInstruction :
    Live (atPc 255 [0x0D, 0x01, 0x07]) ∧
    decode [(atPc 255 [0x0D, 0x01, 0x07]).mem.read 255, (atPc 255 [0x0D, 0x01, 0x07]).mem.read 0,
      (atPc 255 [0x0D, 0x01, 0x07]).mem.read 1] = .ok (.ld 1 7) [] := by decide

theorem witness_DispatchIsByTheOpcodeByte (m : Mnemonic) :
    Live (atPc 255 [opcodeOf m]) ∧ (atPc 255 [opcodeOf m]).mem.read 255 = opcodeOf m := by
  cases m <;> decide

theorem witness_injective_opcode_map : Function.Injective opcodeOf := opcodeOf_injective

theorem witness_IllegalOpcodeFaultsForGood :
    ∀ op ∈ [(0x00 : Byte), 0x0E, 0xFE], Live (atPc 0 [op]) ∧ ∀ m ∈ Mnemonic.all, opcodeOf m ≠ (atPc 0 [op]).mem.read 0 := by
  decide

theorem witness_RegistersHaveOnlyTheirWriters :
    nextIs (atPc 0 [0x01, 0x05]) (fun t => t.a ≠ 0) = true ∧ nextIs (atPc 0 [0x02, 0x05]) (fun t => t.b ≠ 0) = true := by
  decide

theorem witness_MemoryHasOnlyTwoWriters :
    nextIs { atPc 0 [0x06, 0xFF] with a := 1 } (fun t => t.mem.read 255 ≠ 0) = true ∧
    nextIs { atPc 0 [0x0C, 0x00] with input := [1] } (fun t => t.mem.read 0 ≠ 0x0C) = true := by decide

theorem witness_FlagBitsHaveOnlyTheirWriters :
    nextIs (atPc 0 [0x03]) (fun t => flagAt t.flags 1 ≠ flagAt 0 1) = true ∧
    nextIs { atPc 0 [0x04] with b := 1 } (fun t => flagAt t.flags 2 ≠ flagAt 0 2) = true ∧
    nextIs (atPc 0 [0x0B]) (fun t => flagAt t.flags 3 ≠ flagAt 0 3) = true := by decide

theorem witness_Inv : Inv (atPc 0 [0x03]) := ⟨by decide, fun _ => rfl, fun h => absurd rfl h⟩

theorem witness_Inv_faults :
    Inv (atPc 0 [0x0E]) ∧ ∃ left, FaultLeaves (step (atPc 0 [0x0E])) left :=
  ⟨⟨by decide, fun _ => rfl, fun h => absurd rfl h⟩, _, _, _, rfl⟩

theorem witness_EveryHostMoveKeepsTheInvariant :
    Inv State.reset ∧ (∃ t, hostMove twoBytes (.load [0x01, 0x05]) State.reset = some t) ∧
      ∃ t, hostMove twoBytes (.append 5) State.reset = some t :=
  ⟨⟨rfl, by decide, fun h => absurd rfl h⟩, ⟨_, rfl⟩, ⟨_, rfl⟩⟩

theorem witness_EqualReadsAreEqualMemories :
    Memory.wf [(7, 1)] = true ∧ (Memory.write [] 7 1).wf = true ∧
      ∀ x : Byte, Memory.read [(7, 1)] x = (Memory.write [] 7 1).read x := ⟨by decide, by decide, fun _ => rfl⟩

theorem witness_LoadCopiesTheImage :
    State.reset.mem.wf = true ∧ State.reset.loaded = .notLoaded ∧ State.reset.fault = none ∧
      ([0x01, 0x05] : List Byte).length ≤ twoBytes.size ∧ ([0x01, 0x05] : List Byte)[1]? = some 0x05 := by decide

/-- At reset and after the host has appended input; a step and an arrival follow the refused load. -/
theorem witness_LoadThatDoesNotFitIsRefused :
    (Inv State.reset ∧ State.reset.loaded = .notLoaded) ∧
    (Inv (appendInput 5 State.reset) ∧ (appendInput 5 State.reset).loaded = .notLoaded) ∧
    twoBytes.size < ([0x01, 0x05, 0xFF] : List Byte).length ∧
    ((loadImage twoBytes [0x01, 0x05, 0xFF] (appendInput 5 State.reset)).bind
      (runEvents [.tick, .arrive 6])).map (·.input) = some [5, 6] :=
  ⟨⟨⟨rfl, by decide, fun h => absurd rfl h⟩, rfl⟩, ⟨⟨rfl, by decide, fun h => absurd rfl h⟩, rfl⟩, by decide, by decide⟩

theorem witness_StatusTellsTheRunState : Inv (atPc 0 [0x03]) ∧ (atPc 0 [0x03]).loaded = .loaded := ⟨witness_Inv, rfl⟩

theorem witness_LoadedImageRunsItsInstructions :
    ∃ t u, (([.sub] ++ .hlt :: [] : List Instr).flatMap encode).length ≤ twoBytes.size ∧
      startRun twoBytes (([.sub] ++ .hlt :: [] : List Instr).flatMap encode) = some t ∧ SameMemory t u ∧ Live u ∧
      u.pc.toNat = (([.sub] : List Instr).flatMap encode).length :=
  ⟨_, { startRunning State.reset with mem := [(0, 4), (1, 0xFF)], pc := 1 }, by decide, rfl, fun _ => rfl, ⟨rfl, rfl⟩, rfl⟩

theorem witness_DecodedBytesAreTheEncoding : decodeWith opcodeOf [0x0D, 0x01, 0x02, 0x03] = .ok (.ld 1 2) [0x03] := by decide

theorem witness_CommentsAreStripped : (0x3B : Byte) ∉ text "LDA 5" := by decide

theorem witness_LinesAndTokensAreReadBack :
    (0x0A : Byte) ∉ text "LDA 5" ∧ text "LDA 5" ≠ [] ∧ (∀ c ∈ ([0x09, 0x20] : List Byte), Whitespace c) ∧
      (∀ c ∈ ([] : List Byte), Whitespace c) ∧ IsWord (text "1,2") ∧
      ∀ p ∈ [(text "LD", ([0x20, 0x0B] : List Byte))], IsWord p.1 ∧ p.2 ≠ [] ∧ ∀ c ∈ p.2, Whitespace c := by decide

/-- R203: leading, repeated, mixed and trailing whitespace, none after the last token, and a comma that separates nothing. -/
theorem test_tokens :
    tokens (text "LDA 5") = [text "LDA", text "5"] ∧
    tokens ([0x09, 0x20] ++ text "LD" ++ [0x20, 0x0B] ++ text "1,200" ++ [0x0C, 0x0D]) = [text "LD", text "1,200"] := by decide

theorem witness_LiteralsHaveTheirValues :
    parseLiteral (text "0xff") = .value 255 ∧ parseLiteral (text "0x0A") = .value 10 ∧
      [hexDigit (0, false), hexDigit (10, true), hexDigit (15, true), hexDigit (10, false), hexDigit (15, false)] =
        text "0AFaf" ∧
      parseLiteral (text "0") = .value 0 ∧ parseLiteral (text "9") = .value 9 := by
  decide

theorem witness_LabelsComeBeforeLiterals :
    lookupLabel [(text "far", 256)] (text "far") = some 256 ∧ lookupLabel [] (text "300") = none ∧
      parseLiteral (text "300") = .value 300 ∧ parseLiteral (text "foo") = .invalid := by decide

theorem witness_NoArityIsChecked :
    emitLine opcodeOf 32767 [] 1 (.code (spelling .add) [text "7", text "8"]) = .ok [3, 7, 8] ∧
      ∀ t ∈ [text "7", text "8"], ∃ b, resolveOperand 32767 [] 1 t = .byte b :=
  ⟨by decide, by
    intro t ht
    simp only [List.mem_cons, List.not_mem_nil, or_false] at ht
    rcases ht with rfl | rfl
    · exact ⟨7, by decide⟩
    · exact ⟨8, by decide⟩⟩

theorem witness_EmptyOutputFails :
    (source ["nop", "x:"]).contains 0 = false ∧ labelsDistinct (pass1 (parseLines (source ["nop", "x:"]))).1 = true ∧
      parseLines (source ["nop", "x:"]) = [.code (text "nop") [], .label (text "x")] ∧
      lookupMnemonic (text "nop") = none := by decide

theorem witness_FirstBadOperandAborts :
    emitLines opcodeOf 32767 [] 1 [.code (spelling .hlt) []] = .ok [0xFF] ∧
      resolveOperand 32767 [] 2 (text "1") = .byte 1 ∧ lookupLabel [] (text "foo") = none ∧
      parseLiteral (text "foo") = .invalid := by decide

theorem witness_PassLengthsAgree :
    assembleWith opcodeOf 32767 (source ["LDA 1", "x:", "HLT"]) = .ok [0x01, 0x01, 0xFF] ∧
      parseLines (source ["LDA 1", "x:", "HLT"]) =
        [.code (text "LDA") [text "1"]] ++ .label (text "x") :: [.code (text "HLT") []] ∧
      (lookupMnemonic (text "LDA")).isSome = true ∧ (lookupMnemonic (text "HLT")).isSome = true := by decide

theorem witness_AssembledImageIsTheProgram :
    assembleWith opcodeOf 32767 (source ["LD 1 0xF0", "HLT"]) = .ok [0x0D, 0x01, 0xF0, 0xFF] ∧
      programOf (parseLines (source ["LD 1 0xF0", "HLT"])) = some [(.ld, [text "1", text "0xF0"]), (.hlt, [])] := by decide

theorem witness_SourceProgramRunsAsWritten :
    assemble 32767 (source ["SUB", "HLT"]) = .ok [0x04, 0xFF] ∧
      programOf (parseLines (source ["SUB", "HLT"])) = some [(.sub, []), (.hlt, [])] ∧
      ([0x04, 0xFF] : List Byte).length ≤ twoBytes.size ∧ (startRun twoBytes [0x04, 0xFF]).isSome = true := by decide

theorem witness_PassOne_classify :
    tokens (stripComment (text " ; x")) = [] ∧ tokens (stripComment (text "a: b")) = [text "a:", text "b"] ∧
      (text "a:").getLast? = some 0x3A ∧ tokens (stripComment (text "HLT")) = [text "HLT"] ∧
      (text "HLT").getLast? ≠ some 0x3A := by decide

end Sys2Proof.Tests
end

/-! PROOFS. Fetch, decode and dispatch of a tick (spec/40_tick_and_dispatch.md R100 to R103). -/

namespace Sys2Proof.Machine

/-! ## Fetch -/

/-- `n` fetches move `pc` to `pcAfter s n` (R101). -/
theorem pc_add_toNat (s : State) (n : Nat) : (s.pc + BitVec.ofNat 8 n).toNat = pcAfter s n := by
  simp [pcAfter, BitVec.toNat_add]

/-- The bytes a tick decodes are those of three fetches one after another (log 25). -/
theorem codeWindow_eq_fetches (s : State) :
    codeWindow s = [(fetch s).1, (fetch (fetch s).2).1, (fetch (fetch (fetch s).2).2).1] := rfl

/-- Settles O25: the window is `maxLength` fetches by definition, and a fetch is a read and one step of `pc`. -/
theorem fetchReadsAndAdvances : Obligations.FetchReadsAndAdvances := by
  intro s
  have hpc : (fetch s).2.pc.toNat = pcAfter s 1 := pc_add_toNat s 1
  exact ⟨⟨[], codeWindow_eq_fetches s⟩, fetch_byte s, hpc, fetch_a s, fetch_b s,
    fun _ _ => rfl, fun _ => rfl, ⟨rfl, rfl, rfl, rfl⟩, ⟨rfl, rfl, rfl⟩⟩

/-! ## Dispatch -/

/-- Under an injective opcode map, the opcode of a mnemonic is found as that mnemonic (30_encoding.md R74, R76). -/
theorem mnemonicWith_opcode {opc : Mnemonic → Byte} (hopc : Function.Injective opc) (m : Mnemonic) :
    mnemonicWith opc (opc m) = some m := by
  cases hfound : mnemonicWith opc (opc m) with
  | none => exact absurd rfl (found_none_iff.1 hfound m)
  | some m' => rw [hopc (opcode_of_found hfound)]

/-- A tick decodes `i` when the byte at `pc` is its opcode and its operand bytes come next (R101, R102). -/
theorem fetchDecode_of_bytes {opc : Mnemonic → Byte} (hopc : Function.Injective opc) {s : State} {i : Instr}
    {rest : List Byte} (hop : s.mem.read s.pc = opc (mnemonicOf i))
    (hargs : [s.mem.read (s.pc + 1), s.mem.read (s.pc + 2)] = operandsOf i ++ rest) :
    fetchDecode opc s = .ok i rest := by
  rw [fetchDecode, codeWindow_eq, hop, hargs]
  simp only [decodeWith, mnemonicWith_opcode hopc, takeOperands_operandsOf]

/-- While RUNNING is true and FAULT none, the decoded instruction is executed (R100, R103). -/
theorem tickIfEnabled_of_decoded {opc : Mnemonic → Byte} {s : State} {i : Instr} {rest : List Byte} (hlive : Live s)
    (hdec : fetchDecode opc s = .ok i rest) : tickIfEnabled opc s = exec i s := by
  obtain ⟨hrun, hfault⟩ := hlive
  simp [tickIfEnabled, hfault, hrun, stepOutcome_tick hdec]

/-- A step executes `i` when the byte at `pc` is its opcode and its operand bytes come next (R103). -/
theorem step_of_bytes {s : State} (hlive : Live s) (i : Instr) {rest : List Byte}
    (hargs : [s.mem.read (s.pc + 1), s.mem.read (s.pc + 2)] = operandsOf i ++ rest)
    (hop : s.mem.read s.pc = opcodeOf (mnemonicOf i)) : step s = exec i s :=
  tickIfEnabled_of_decoded hlive (fetchDecode_of_bytes opcodeOf_injective hop hargs)

/-- Settles O27: each row of R103 is `step_of_bytes` at the row's instruction, whose operands stand at the front of the two bytes
after the opcode. -/
theorem dispatchIsByTheOpcodeByte : Obligations.DispatchIsByTheOpcodeByte := by
  intro s hlive
  have row := @step_of_bytes s hlive
  exact ⟨row (.lda _) rfl, row (.ldb _) rfl, row .add rfl, row .sub rfl, row .mul rfl, row .div rfl,
    row (.sta _) rfl, row (.ldm _) rfl, row (.ld _ _) rfl, row (.outv _) rfl, row (.inp _) rfl,
    row (.jez _) rfl, row (.jnz _) rfl, row .hlt rfl⟩

end Sys2Proof.Machine

/-! PROOFS. The result and the carry-style flag of ADD, SUB and MUL (spec/42_arithmetic.md R134, R136). -/

namespace Sys2Proof.Machine

/-! ## What the arithmetic family does with its unbounded result -/

/-- ADD, SUB and MUL differ in their unbounded result only (R134 to R137). -/
theorem exec_of_rawResult {s : State} {i : Instr} {raw : Int} (h : RawResult s i raw) :
    exec i s = .next (arith (advance 1 s) raw) := by
  cases h <;> rfl

/-- Each of ADD, SUB and MUL has an unbounded result, and it is the same whatever FLAGS hold: no carry-in (R134). -/
theorem exists_rawResult_forall_flags (s : State) {i : Instr} (hi : i ∈ [Instr.add, Instr.sub, Instr.mul]) :
    ∃ raw, ∀ f : Byte, RawResult { s with flags := f } i raw := by
  simp only [List.mem_cons, List.not_mem_nil, or_false] at hi
  rcases hi with rfl | rfl | rfl
  · exact ⟨s.a.toNat + s.b.toNat, fun _ => .add⟩
  · exact ⟨s.a.toNat - s.b.toNat, fun _ => .sub⟩
  · exact ⟨s.a.toNat * s.b.toNat, fun _ => .mul⟩

/-! ## The byte written to A (R134) -/

/-- A gets the unbounded result modulo 256 (R134). -/
theorem exec_a_of_rawResult {s : State} {i : Instr} {raw : Int} (h : RawResult s i raw) :
    ∃ t, exec i s = .next t ∧ (t.a.toNat : Int) = raw % 256 :=
  ⟨_, exec_of_rawResult h, byteResult_toNat raw⟩

/-- No flag is read: under two flag bytes an arithmetic instruction computes the same A, Z and C (R134). -/
theorem arith_result_independent_of_flags (s : State) (f : Byte) {i : Instr} {t t' : State}
    (hi : i ∈ [Instr.add, Instr.sub, Instr.mul]) (ht : exec i s = .next t)
    (ht' : exec i { s with flags := f } = .next t') :
    t'.a = t.a ∧ flagAt t'.flags 1 = flagAt t.flags 1 ∧ flagAt t'.flags 2 = flagAt t.flags 2 := by
  obtain ⟨raw, hraw⟩ := exists_rawResult_forall_flags s hi
  rw [exec_of_rawResult (hraw s.flags)] at ht
  rw [exec_of_rawResult (hraw f)] at ht'
  cases ht
  cases ht'
  simp [flagAt_arithFlags]

/-- Settles O1: A is the byte of the unbounded result, and that result is computed from A and B alone. -/
theorem arithmeticResultModulo256 : Obligations.ArithmeticResultModulo256 := fun s =>
  ⟨exec_a_of_rawResult .add, exec_a_of_rawResult .sub, exec_a_of_rawResult .mul,
    fun _ hi f _ _ => arith_result_independent_of_flags s f hi⟩

/-! ## The carry-style flag (R136) -/

/-- Bit 2 of FLAGS is the carry-style flag of the unbounded result (R136). -/
theorem exec_carry_of_rawResult {s : State} {i : Instr} {raw : Int} (h : RawResult s i raw) :
    ∃ t, exec i s = .next t ∧ (flagAt t.flags 2 = true ↔ raw < 0 ∨ 255 < raw) :=
  ⟨_, exec_of_rawResult h, by simp [flagAt_arithFlags, carryRule]⟩

/-- R136 for one instruction: `p` may be said for "the unbounded result is outside `0..255`". -/
theorem exec_carry_iff {s : State} {i : Instr} {raw : Int} {p : Prop} (h : RawResult s i raw)
    (hp : raw < 0 ∨ 255 < raw ↔ p) : ∃ t, exec i s = .next t ∧ (flagAt t.flags 2 = true ↔ p) := by
  obtain ⟨t, ht, hcarry⟩ := exec_carry_of_rawResult h
  exact ⟨t, ht, hcarry.trans hp⟩

/-- A result that is a natural number leaves the byte range only at the top: the overflow of ADD and MUL (R136). -/
theorem natCast_outside_byte_iff (n : Nat) : (n : Int) < 0 ∨ 255 < (n : Int) ↔ 255 < n := by
  omega

/-- A difference of two bytes leaves the byte range only at the bottom: the borrow of SUB (R136). -/
theorem byte_sub_outside_byte_iff (x y : Byte) :
    (x.toNat : Int) - y.toNat < 0 ∨ 255 < (x.toNat : Int) - y.toNat ↔ x.toNat < y.toNat := by
  have := x.isLt
  omega

/-- Settles O2: the carry rule at each unbounded result, where the sum and the product of two bytes are natural numbers and their
difference is at most 255. -/
theorem carryFlagIsResultOutsideByte : Obligations.CarryFlagIsResultOutsideByte := fun s =>
  ⟨exec_carry_iff .add (natCast_outside_byte_iff (s.a.toNat + s.b.toNat)),
    exec_carry_iff .sub (byte_sub_outside_byte_iff s.a s.b),
    exec_carry_iff .mul (natCast_outside_byte_iff (s.a.toNat * s.b.toNat)),
    fun _ _ => exec_carry_of_rawResult⟩

end Sys2Proof.Machine

/-! PROOFS. The jumps and the halt (spec/45_control.md R180 to R184). -/

namespace Sys2Proof.Machine

/-! ## The jumps -/

/-- A jump taken discards the incremented `pc` for the operand byte (R184). -/
theorem jumpIf_pc_of_taken {taken : Bool} (addr : Byte) (s : State) (h : taken = true) :
    (jumpIf taken addr s).pc = addr := by
  rw [jumpIf_eq, if_pos h]

/-- A jump not taken leaves `pc` at the byte after its operand (R184). -/
theorem jumpIf_pc_of_not_taken {taken : Bool} (addr : Byte) (s : State) (h : taken = false) :
    (jumpIf taken addr s).pc.toNat = pcAfter s 2 := by
  rw [jumpIf_eq, if_neg (Bool.eq_false_iff.1 h)]
  exact pc_add_toNat s 2

/-- Taken or not, a jump writes nothing but `pc` (R183). -/
theorem jumpIf_frame (taken : Bool) (addr : Byte) (s : State) :
    (jumpIf taken addr s).a = s.a ∧ (jumpIf taken addr s).b = s.b ∧ SameFlagsBut [] s (jumpIf taken addr s) ∧
      SameMemory s (jumpIf taken addr s) ∧ SameStreams s (jumpIf taken addr s) ∧
      SameRunState s (jumpIf taken addr s) := by
  rw [jumpIf_eq]
  exact ⟨rfl, rfl, fun _ _ => rfl, fun _ => rfl, ⟨rfl, rfl, rfl, rfl⟩, ⟨rfl, rfl, rfl⟩⟩

/-- Settles O20: JEZ is the jump taken on bit 1 of FLAGS and JNZ the jump taken on its complement. -/
theorem jumpTakenOrFallsThrough : Obligations.JumpTakenOrFallsThrough := by
  intro addr s
  have hjez := jumpIf_frame (getFlag s.flags .z) addr s
  have hjnz := jumpIf_frame (!getFlag s.flags .z) addr s
  exact ⟨⟨_, rfl, jumpIf_pc_of_taken addr s, jumpIf_pc_of_not_taken addr s, hjez⟩,
    ⟨_, rfl, fun hclear => jumpIf_pc_of_taken addr s (congrArg not hclear),
      fun hset => jumpIf_pc_of_not_taken addr s (congrArg not hset), hjnz⟩⟩

/-! ## The halt -/

/-- No tick follows once RUNNING is false: a step that answers a state answers the one it was given (R182; log 14). -/
theorem step_next_of_not_running {s t : State} (hstop : s.running = false) (h : step s = .next t) : t = s := by
  rcases step_next h with ⟨_, _, heq⟩ | ⟨_, hrun, _⟩
  · exact heq
  · rw [hstop] at hrun
    cases hrun

/-- A loaded run without a fault whose RUNNING is false is halted (70_reset_and_hazards.md R284). -/
theorem statusOf_halted {s : State} (hload : s.loaded = .loaded) (hfault : s.fault = none)
    (hstop : s.running = false) : statusOf s = some .halted := by
  simp [statusOf, hload, hfault, hstop]

/-- Settles O23: HLT only moves `pc` and clears RUNNING, and a core that is not running keeps its state. -/
theorem hltEndsTheRun : Obligations.HltEndsTheRun := by
  refine ⟨rfl, by decide, fun s => ⟨stopRunning (advance 1 s), rfl, stopRunning_running _, pc_add_toNat s 1, rfl, rfl,
    fun _ _ => rfl, fun _ => rfl, ⟨rfl, rfl, rfl, rfl⟩, rfl, rfl, ?_, ?_⟩⟩
  · intro hfault hload
    exact statusOf_halted hload hfault (stopRunning_running _)
  · intro u
    exact step_next_of_not_running (stopRunning_running _)

end Sys2Proof.Machine

/-! PROOFS. Comments, the classes of lines, pass 1 and what pass 2 emits (spec/50_assembler.md R202 to R217). -/

namespace Sys2Proof.Machine

/-! ## Comments and the classes of lines (R202, R204) -/

/-- A line without the marker is no comment in any part (R202). -/
theorem stripComment_of_not_mem {line : List Byte} (h : commentMark ∉ line) : stripComment line = line := by
  rw [stripComment, List.takeWhile_eq_self_iff]
  intro c hc
  simpa using ne_of_mem_of_not_mem hc h

/-- The first marker and what follows it are stripped (R202). -/
theorem stripComment_append_commentMark {line : List Byte} (tail : List Byte) (h : commentMark ∉ line) :
    stripComment (line ++ commentMark :: tail) = line := by
  have hline : ∀ c ∈ line, (c != commentMark) = true := fun c hc => by simpa using ne_of_mem_of_not_mem hc h
  rw [stripComment, List.takeWhile_append_of_pos hline]
  simp

/-- Settles O49: stripping takes the bytes before the first marker, which are those of a line that holds none. -/
theorem commentsAreStripped : Obligations.CommentsAreStripped :=
  ⟨fun _ tail h => stripComment_append_commentMark tail h, fun _ h => stripComment_of_not_mem h⟩

/-- A line that is blank but for its comment is blank (R204). -/
theorem classify_of_no_tokens {line : List Byte} (h : tokens (stripComment line) = []) : classify line = .blank := by
  simp [classify, h]

/-- A line whose first token ends with `:` defines the label before the `:` (R204, R205). -/
theorem classify_of_colon {line : List Byte} {first : Token} {others : List Token}
    (h : tokens (stripComment line) = first :: others) (hcolon : first.getLast? = some colon) :
    classify line = .label first.dropLast := by
  simp [classify, h, endsInColon, hcolon]

/-- Any other line is an instruction line (R204). -/
theorem classify_of_not_colon {line : List Byte} {first : Token} {others : List Token}
    (h : tokens (stripComment line) = first :: others) (hcolon : first.getLast? ≠ some colon) :
    classify line = .code first others := by
  simp [classify, h, endsInColon, hcolon]

/-! ## The symbol table of pass 1 (R207) -/

/-- Pass 1 binds a label to the counter at its line, then goes on with the line's bytes counted. -/
theorem mem_pass1From_cons (counter : Nat) (l : Line) (ls : List Line) (name : Token) (v : Nat) :
    (name, v) ∈ (pass1From counter (l :: ls)).1 ↔
      (l = .label name ∧ v = counter) ∨ (name, v) ∈ (pass1From (counter + lineSize l) ls).1 := by
  cases l with
  | blank => simp [pass1From, lineSize]
  | label name' => simp [pass1From, lineSize, eq_comm]
  | code head operands => simp [pass1From, lineSize]

/-- The entries of the symbol table are the label lines, each with the bytes counted before it (R207). -/
theorem mem_pass1From (counter : Nat) (lines : List Line) (name : Token) (v : Nat) :
    (name, v) ∈ (pass1From counter lines).1 ↔
      ∃ before after, lines = before ++ .label name :: after ∧ v = counter + (before.map lineSize).sum := by
  induction lines generalizing counter with
  | nil => simp [pass1From]
  | cons l ls ih =>
    rw [mem_pass1From_cons, ih]
    constructor
    · rintro (⟨rfl, rfl⟩ | ⟨before, after, rfl, rfl⟩)
      · exact ⟨[], ls, rfl, rfl⟩
      · exact ⟨l :: before, after, rfl, by simp [Nat.add_assoc]⟩
    · rintro ⟨before, after, hsplit, rfl⟩
      rcases List.cons_eq_append_iff.1 hsplit with ⟨rfl, hhead⟩ | ⟨before', rfl, rfl⟩
      · obtain ⟨rfl, -⟩ := List.cons.inj hhead
        exact .inl ⟨rfl, rfl⟩
      · exact .inr ⟨before', after, rfl, by simp [Nat.add_assoc]⟩

/-- Settles O52: the classes of lines, and the two results of pass 1 at counter 0. -/
theorem passOneBindsLabelsToByteCounts : Obligations.PassOneBindsLabelsToByteCounts := by
  refine ⟨fun _ => classify_of_no_tokens, fun _ _ _ h => ⟨classify_of_colon h, classify_of_not_colon h⟩,
    fun _ => rfl, rfl, fun _ _ => rfl, fun lines => ⟨?_, fun name v => ?_⟩⟩
  · simpa [pass1] using pass1From_counter 0 lines
  · simpa [pass1] using mem_pass1From 0 lines name v

/-! ## One operand token (R212 to R214) -/

/-- A token that is a label emits its value, whatever literal it also is (R212, R213). -/
theorem resolveOperand_of_label {symtab : Symtab} {t : Token} {v : Nat} (hostIntMax n : Nat)
    (h : lookupLabel symtab t = some v) : resolveOperand hostIntMax symtab n t = .byte (BitVec.ofNat 8 v) := by
  simp [resolveOperand, h]

/-- A token that is no label emits the low 8 bits of its literal, if the host's integer holds that (R214). -/
theorem resolveOperand_of_literal {hostIntMax : Nat} {symtab : Symtab} {t : Token} {v : Nat} (n : Nat)
    (h : lookupLabel symtab t = none) (hlit : parseLiteral t = .value v) (hmax : v ≤ hostIntMax) :
    resolveOperand hostIntMax symtab n t = .byte (BitVec.ofNat 8 v) := by
  simp [resolveOperand, h, hlit, hmax]

/-- A token that is neither a label nor a literal is a bad operand (R216). -/
theorem resolveOperand_of_invalid {symtab : Symtab} {t : Token} (hostIntMax n : Nat)
    (h : lookupLabel symtab t = none) (hlit : parseLiteral t = .invalid) :
    resolveOperand hostIntMax symtab n t = .fail (.badOperand n t) := by
  simp [resolveOperand, h, hlit]

/-- Settles O53: the label's value or, for a token that is no label, the literal's, each cut to 8 bits. -/
theorem labelsComeBeforeLiterals : Obligations.LabelsComeBeforeLiterals := fun hostIntMax n _ _ =>
  ⟨fun v h => ⟨_, resolveOperand_of_label hostIntMax n h, BitVec.toNat_ofNat v 8⟩,
    fun h v hlit hmax => ⟨_, resolveOperand_of_literal n h hlit hmax, BitVec.toNat_ofNat v 8⟩,
    resolveOperand_of_invalid hostIntMax n⟩

/-! ## The operands of a line (R215) -/

/-- Operand tokens that give a byte each are emitted, however many there are (R215). -/
theorem resolveOperands_of_forall_byte {hostIntMax n : Nat} {symtab : Symtab} {operands : List Token}
    (h : ∀ t ∈ operands, ∃ b, resolveOperand hostIntMax symtab n t = .byte b) :
    ∃ bs, resolveOperands hostIntMax symtab n operands = .ok bs := by
  induction operands with
  | nil => exact ⟨[], rfl⟩
  | cons t ts ih =>
    obtain ⟨⟨b, hb⟩, hrest⟩ := List.forall_mem_cons.1 h
    obtain ⟨bs, hbs⟩ := ih hrest
    exact ⟨b :: bs, by simp [resolveOperands, hb, hbs]⟩

/-- A line with a known mnemonic emits when its operands do (R210). -/
theorem emitLine_of_operands {hostIntMax n : Nat} {symtab : Symtab} {operands : List Token} {bs : List Byte}
    (opc : Mnemonic → Byte) (m : Mnemonic) (h : resolveOperands hostIntMax symtab n operands = .ok bs) :
    emitLine opc hostIntMax symtab n (.code (spelling m) operands) = .ok (opc m :: bs) := by
  simp [emitLine, h]

/-- Settles O54: nothing but the operand tokens decides whether the line emits and how many bytes. -/
theorem noArityIsChecked : Obligations.NoArityIsChecked := by
  intro opc hostIntMax n symtab m operands bs
  constructor
  · intro h
    obtain ⟨args, hargs, rfl⟩ := emitLine_known (lookupMnemonic_spelling m) h
    exact ⟨rfl, by rw [List.length_cons, resolveOperands_length hargs, Nat.add_comm]⟩
  · intro h
    obtain ⟨args, hargs⟩ := resolveOperands_of_forall_byte h
    exact ⟨_, emitLine_of_operands opc m hargs⟩

/-! ## Emission never fails with EmptyOutput (R216) -/

/-- The only failure of an operand token is that it is a bad one. -/
theorem resolveOperand_fail {hostIntMax n : Nat} {symtab : Symtab} {t : Token} {reason : AsmFailure}
    (h : resolveOperand hostIntMax symtab n t = .fail reason) : reason = .badOperand n t := by
  unfold resolveOperand at h
  split at h
  · cases h
  · split at h
    · split at h <;> cases h
    · cases h
    · exact (OperandOutcome.fail.inj h).symm

/-- Operand tokens fail by one of them. -/
theorem resolveOperands_fail {hostIntMax n : Nat} {symtab : Symtab} {operands : List Token} {reason : AsmFailure}
    (h : resolveOperands hostIntMax symtab n operands = .fail reason) : ∃ t ∈ operands, reason = .badOperand n t := by
  induction operands with
  | nil => cases h
  | cons t ts ih =>
    simp only [resolveOperands] at h
    split at h
    · split at h
      · cases h
      · next hts =>
        cases h
        obtain ⟨u, hu, hreason⟩ := ih hts
        exact ⟨u, List.mem_cons_of_mem t hu, hreason⟩
      · cases h
    · next ht =>
      cases h
      exact ⟨t, List.mem_cons_self, resolveOperand_fail ht⟩
    · cases h

/-- A line fails by one of its operand tokens. -/
theorem emitLine_fail {opc : Mnemonic → Byte} {hostIntMax n : Nat} {symtab : Symtab} {l : Line} {reason : AsmFailure}
    (h : emitLine opc hostIntMax symtab n l = .fail reason) : ∃ t, reason = .badOperand n t := by
  cases l with
  | blank => cases h
  | label name => cases h
  | code head operands =>
    simp only [emitLine] at h
    split at h
    · cases h
    · split at h
      · cases h
      · next hops =>
        cases h
        obtain ⟨t, -, hreason⟩ := resolveOperands_fail hops
        exact ⟨t, hreason⟩
      · cases h

/-- Lines fail by one operand token of one of them. -/
theorem emitLines_fail {opc : Mnemonic → Byte} {hostIntMax n : Nat} {symtab : Symtab} {ls : List Line}
    {reason : AsmFailure} (h : emitLines opc hostIntMax symtab n ls = .fail reason) :
    ∃ k t, reason = .badOperand k t := by
  induction ls generalizing n with
  | nil => cases h
  | cons l ls ih =>
    simp only [emitLines] at h
    split at h
    · split at h
      · cases h
      · next hls =>
        cases h
        exact ih hls
      · cases h
    · next hl =>
      cases h
      exact ⟨n, emitLine_fail hl⟩
    · cases h

/-! ## Empty output (R217) -/

/-- Pass 2 fails with EmptyOutput exactly when it went through all lines and emitted nothing (R217). -/
theorem pass2_emptyOutput_iff {opc : Mnemonic → Byte} {hostIntMax : Nat} {symtab : Symtab} {lines : List Line} :
    pass2 opc hostIntMax symtab lines = .fail .emptyOutput ↔ emitLines opc hostIntMax symtab 1 lines = .ok [] := by
  unfold pass2
  split
  · next hempty => simp [hempty]
  · next hbytes => simp [hbytes]
  · next hfail =>
    obtain ⟨k, t, rfl⟩ := emitLines_fail hfail
    simp [hfail]
  · next hrefused => simp [hrefused]

/-- An admitted text is assembled by pass 2 (R200, R222). -/
theorem assembleWith_of_admitted {text : List Byte} (opc : Mnemonic → Byte) (hostIntMax : Nat)
    (hnul : text.contains 0 = false) (hdistinct : labelsDistinct (pass1 (parseLines text)).1 = true) :
    assembleWith opc hostIntMax text = pass2 opc hostIntMax (pass1 (parseLines text)).1 (parseLines text) := by
  rw [assembleWith, if_neg (Bool.eq_false_iff.1 hnul), if_pos hdistinct]

/-- A text that fails is an admitted one, and pass 2 fails (R219). -/
theorem pass2_of_assembleWith_fail {opc : Mnemonic → Byte} {hostIntMax : Nat} {text : List Byte} {reason : AsmFailure}
    (h : assembleWith opc hostIntMax text = .fail reason) :
    pass2 opc hostIntMax (pass1 (parseLines text)).1 (parseLines text) = .fail reason := by
  unfold assembleWith at h
  split at h
  · cases h
  · split at h
    · exact h
    · cases h

/-- A line that is no instruction line with a known mnemonic emits nothing (R210, R211). -/
theorem emitLine_eq_nil {l : Line} (opc : Mnemonic → Byte) (hostIntMax n : Nat) (symtab : Symtab)
    (h : ∀ head operands, .code head operands = l → lookupMnemonic head = none) :
    emitLine opc hostIntMax symtab n l = .ok [] := by
  cases l with
  | blank => rfl
  | label name => rfl
  | code head operands => simp [emitLine, h head operands rfl]

/-- Blank lines, labels and unknown mnemonics emit nothing, however many lines there are (R210, R211). -/
theorem emitLines_eq_nil {lines : List Line} (opc : Mnemonic → Byte) (hostIntMax n : Nat) (symtab : Symtab)
    (h : ∀ head operands, .code head operands ∈ lines → lookupMnemonic head = none) :
    emitLines opc hostIntMax symtab n lines = .ok [] := by
  induction lines generalizing n with
  | nil => rfl
  | cons l ls ih =>
    have hl := emitLine_eq_nil opc hostIntMax n symtab fun head operands e => h head operands (e ▸ List.mem_cons_self)
    have hls := ih (n + 1) fun head operands hmem => h head operands (List.mem_cons_of_mem l hmem)
    simp [emitLines, hl, hls]

/-- An admitted text without a known mnemonic fails with EmptyOutput (R217). -/
theorem assembleWith_emptyOutput {text : List Byte} (opc : Mnemonic → Byte) (hostIntMax : Nat)
    (hnul : text.contains 0 = false) (hdistinct : labelsDistinct (pass1 (parseLines text)).1 = true)
    (hunknown : ∀ head operands, .code head operands ∈ parseLines text → lookupMnemonic head = none) :
    assembleWith opc hostIntMax text = .fail .emptyOutput := by
  rw [assembleWith_of_admitted opc hostIntMax hnul hdistinct, pass2_emptyOutput_iff]
  exact emitLines_eq_nil opc hostIntMax 1 _ hunknown

/-- Settles O55: EmptyOutput is pass 2's answer to no byte and to nothing else; the empty text has no line at all. -/
theorem emptyOutputFails : Obligations.EmptyOutputFails := by
  refine ⟨fun hostIntMax _ => assembleWith_emptyOutput opcodeOf hostIntMax, fun hostIntMax => ?_, fun _ _ h => ?_,
    fun _ _ h => ?_⟩
  · exact assembleWith_emptyOutput opcodeOf hostIntMax rfl rfl fun _ _ hmem => nomatch hmem
  · exact pass2_emptyOutput_iff.1 (pass2_of_assembleWith_fail h)
  · obtain ⟨-, -, hne, -⟩ := assembleWith_ok h
    exact hne rfl

end Sys2Proof.Machine

/-! PROOFS. The conditions recorded in FLAGS or on Diag, after which execution continues (spec/60_exceptions.md R253 to R255). -/

namespace Sys2Proof.Machine

/-! ## Divide by zero (R253) -/

/-- DIV with B = 0 moves `pc` and sets bit 3 (R253). -/
theorem exec_div_of_zero {s : State} (hb : s.b = 0) : exec .div s = .next (writeFlag (advance 1 s) .dz true) := by
  rcases execDiv_cases s with ⟨_, h⟩ | ⟨hb', _⟩
  · exact h
  · exact absurd hb hb'

/-- DIV writes bit 3 of FLAGS, with "B is 0", and no other bit (42_arithmetic.md R133, R137; decision D7, log 8). -/
theorem exec_div_flags {s t : State} (h : exec .div s = .next t) : t.flags = setFlag s.flags .dz (decide (s.b = 0)) := by
  rcases execDiv_cases s with ⟨hb, hdiv⟩ | ⟨hb, hdiv⟩ <;> cases hdiv.symm.trans h
  · rw [decide_eq_true hb]
    rfl
  · rw [decide_eq_false hb]
    rfl

/-- ADD, SUB and MUL write FLAGS by the flag rules of their unbounded result (42_arithmetic.md R135 to R137). -/
theorem exec_flags_of_rawResult {s t : State} {i : Instr} {raw : Int} (hraw : RawResult s i raw)
    (h : exec i s = .next t) : t.flags = arithFlags s.flags raw := by
  cases (exec_of_rawResult hraw).symm.trans h
  exact arith_flags (advance 1 s) raw

/-- Everything an instruction can do to FLAGS: nothing, the flag rules of ADD, SUB and MUL, or bit 3 by DIV (10_state.md R14;
decisions D7 to D9, logs 8 to 10). -/
theorem exec_flags_cases {s t : State} {i : Instr} (h : exec i s = .next t) :
    t.flags = s.flags ∨ (∃ raw, RawResult s i raw ∧ t.flags = arithFlags s.flags raw) ∨
      (i = .div ∧ t.flags = setFlag s.flags .dz (decide (s.b = 0))) := by
  cases i with
  | add => exact .inr (.inl ⟨_, .add, exec_flags_of_rawResult .add h⟩)
  | sub => exact .inr (.inl ⟨_, .sub, exec_flags_of_rawResult .sub h⟩)
  | mul => exact .inr (.inl ⟨_, .mul, exec_flags_of_rawResult .mul h⟩)
  | div => exact .inr (.inr ⟨rfl, exec_div_flags h⟩)
  | sta addr =>
    cases (execSta_eq addr s).symm.trans h
    exact .inl rfl
  | ldm addr =>
    cases (execLdm_eq addr s).symm.trans h
    exact .inl rfl
  | jez addr | jnz addr =>
    cases h
    rw [jumpIf_eq]
    exact .inl rfl
  | inp addr =>
    rcases execInp_cases addr s with ⟨_, hinp⟩ | ⟨_, _, _, hinp⟩ <;> cases hinp.symm.trans h <;> exact .inl rfl
  | ld sel addr =>
    rcases execLd_cases sel addr s with ⟨_, hld⟩ | ⟨_, hld⟩ | ⟨_, _, hld⟩ <;> cases hld.symm.trans h <;> exact .inl rfl
  | lda _ | ldb _ | outv _ | hlt =>
    cases h
    exact .inl rfl

/-- An instruction that clears bit 3 of FLAGS is a DIV with B not 0 (R253). -/
theorem div_of_exec_clears_dz {s t : State} {i : Instr} (h : exec i s = .next t) (hset : flagAt s.flags 3 = true)
    (hclear : flagAt t.flags 3 = false) : i = .div ∧ s.b ≠ 0 := by
  rcases exec_flags_cases h with hf | ⟨raw, _, hf⟩ | ⟨hi, hf⟩ <;> rw [hf] at hclear
  · simp [hset] at hclear
  · simp [flagAt_arithFlags, hset] at hclear
  · have hbit : decide (s.b = 0) = false := by simpa [flagAt_setFlag, flagBit] using hclear
    exact ⟨hi, of_decide_eq_false hbit⟩

/-- Settles O7: a step that clears bit 3 changes FLAGS, so it executed an instruction, and that is a DIV with B not 0. -/
theorem divideByZeroFlagStaysUntilNextDiv : Obligations.DivideByZeroFlagStaysUntilNextDiv := by
  refine ⟨fun s hb => ?_, fun s t hstep hset hclear => ?_⟩
  · have hdz : flagAt (setFlag s.flags .dz true) 3 = true := flagAt_setFlag s.flags .dz true 3
    exact ⟨_, exec_div_of_zero hb, hdz, rfl, pc_add_toNat s 1, rfl, rfl, rfl⟩
  · rcases step_next hstep with ⟨_, _, rfl⟩ | ⟨_, _, i, rest, hdec, hexec⟩
    · rw [hset] at hclear
      cases hclear
    · obtain ⟨rfl, hb⟩ := div_of_exec_clears_dz hexec hset hclear
      exact ⟨hb, rest, hdec⟩

/-! ## Arithmetic overflow (R254) -/

/-- Settles O3: bit 2 is the carry rule of the unbounded result, which asks whether that lies outside `0..255`. -/
theorem overflowIsRecordedAndExecutionContinues : Obligations.OverflowIsRecordedAndExecutionContinues := by
  intro s i raw hraw
  have hcarry : flagAt (arithFlags s.flags raw) 2 = carryRule raw := flagAt_arithFlags s.flags raw 2
  refine ⟨_, exec_of_rawResult hraw, pc_add_toNat s 1, ⟨rfl, rfl, rfl⟩, byteResult_toNat raw, fun hout => ?_,
    fun hlow hhigh => ?_⟩
  · exact hcarry.trans (decide_eq_true hout)
  · exact hcarry.trans (decide_eq_false (by omega))

/-! ## Bad register selector (R255) -/

/-- LD with a selector other than 1 and 2 moves `pc` and reports the selector (R255; decision D14, log 13). -/
theorem exec_ld_of_bad_selector {sel : Byte} (addr : Byte) (s : State) (h1 : sel ≠ 1) (h2 : sel ≠ 2) :
    exec (.ld sel addr) s = .next (pushDiag (advance 3 s) (.badRegisterSelector sel)) := by
  rcases execLd_cases sel addr s with ⟨h, _⟩ | ⟨h, _⟩ | ⟨_, _, hld⟩
  · exact absurd h h1
  · exact absurd h h2
  · exact hld

/-- Settles O14: the report on Diag and the move of `pc` are all that happens. -/
theorem badSelectorIsReportedAndIgnored : Obligations.BadSelectorIsReportedAndIgnored := fun _ addr s h1 h2 =>
  ⟨_, exec_ld_of_bad_selector addr s h1 h2, rfl, rfl, rfl, pc_add_toNat s 3, fun _ _ => rfl, fun _ => rfl,
    ⟨rfl, rfl, rfl⟩, rfl, rfl, rfl⟩

end Sys2Proof.Machine

/-! PROOFS. The decoder and the encoder of single instructions invert each other (spec/30_encoding.md R70 to R78). -/

namespace Sys2Proof

/-! ## Decode and encode -/

/-- Decoding a byte that is an opcode takes that mnemonic's operands (R76). -/
theorem decodeWith_of_found {opc : Mnemonic → Byte} {op : Byte} {m : Mnemonic} (h : mnemonicWith opc op = some m)
    (bs : List Byte) : decodeWith opc (op :: bs) = takeOperands m bs := by
  simp only [decodeWith, h]

/-- Decoding a byte that is no opcode rejects it by name (R78). -/
theorem decodeWith_of_not_found {opc : Mnemonic → Byte} {op : Byte} (h : mnemonicWith opc op = none) (bs : List Byte) :
    decodeWith opc (op :: bs) = .bad (.illegalOpcode op) := by
  simp only [decodeWith, h]

/-- Settles O46: the opcode is found as the instruction's own mnemonic, whose operands are then taken. -/
theorem decodeOfEncodeUnderAnyOpcodeMap : Obligations.DecodeOfEncodeUnderAnyOpcodeMap := by
  intro opc i rest hopc
  calc decodeWith opc (encodeWith opc i ++ rest)
      = takeOperands (mnemonicOf i) (operandsOf i ++ rest) :=
        decodeWith_of_found (Machine.mnemonicWith_opcode hopc (mnemonicOf i)) _
    _ = .ok i rest := takeOperands_operandsOf i rest

/-- Settles O47: the byte found is the opcode of the mnemonic, and the operands taken stood behind it. -/
theorem decodedBytesAreTheEncoding : Obligations.DecodedBytesAreTheEncoding := by
  intro opc i bytes rest h
  cases bytes with
  | nil => cases h
  | cons op bs =>
    cases hfound : mnemonicWith opc op with
    | none => cases (decodeWith_of_not_found hfound bs).symm.trans h
    | some m =>
      obtain ⟨rfl, rfl⟩ := operands_of_taken ((decodeWith_of_found hfound bs).symm.trans h)
      rw [← opcode_of_found hfound]
      rfl

/-- Settles O45: each word is the encoding of its instruction, with nothing behind it. -/
theorem specWordsDecode : Obligations.SpecWordsDecode := by
  have hdec (i : Instr) : decode (encode i ++ []) = .ok i [] :=
    decodeOfEncodeUnderAnyOpcodeMap opcodeOf i [] opcodeOf_injective
  exact ⟨hdec (.lda 5), hdec (.ldb 3), hdec .add, hdec (.outv 0xC8), hdec (.jez 9), hdec (.ld 2 0xC9), hdec .hlt⟩

/-! ## The illegal opcodes (R78) -/

/-- Taking operands rejects no opcode: at most an operand is missing. -/
theorem takeOperands_ne_illegalOpcode (m : Mnemonic) (bs : List Byte) (op : Byte) :
    takeOperands m bs ≠ .bad (.illegalOpcode op) := by
  cases m <;> rcases bs with _ | ⟨x, _ | ⟨y, bs⟩⟩ <;> simp [takeOperands, takeOne, takeTwo]

/-- A byte is rejected as an illegal opcode exactly when it is nobody's opcode, whatever follows it (R78). -/
theorem decode_illegalOpcode_iff (op : Byte) (bs : List Byte) :
    decode (op :: bs) = .bad (.illegalOpcode op) ↔ ∀ m, opcodeOf m ≠ op := by
  rw [← found_none_iff]
  constructor
  · intro h
    cases hfound : mnemonicWith opcodeOf op with
    | none => rfl
    | some m => exact absurd ((decodeWith_of_found hfound bs).symm.trans h) (takeOperands_ne_illegalOpcode m bs op)
  · exact fun h => decodeWith_of_not_found h bs

/-- With two bytes behind it a byte decodes to an instruction exactly when it is somebody's opcode (R78). -/
theorem exists_decode_ok_iff (op x y : Byte) : (∃ i r, decode [op, x, y] = .ok i r) ↔ ¬∀ m, opcodeOf m ≠ op := by
  rw [← found_none_iff]
  cases hfound : mnemonicWith opcodeOf op with
  | none => simp [decode, decodeWith_of_not_found hfound]
  | some m => simpa [decode, decodeWith_of_found hfound] using takeOperands_two m x y

/-- A byte is nobody's opcode when it is none of the 14 values of R74. -/
theorem forall_opcodeOf_ne_iff_not_mem (op : Byte) :
    (∀ m, opcodeOf m ≠ op) ↔ op.toNat ∉ [1, 2, 3, 4, 5, 6, 7, 8, 9, 10, 11, 12, 13, 255] := by
  have hvalues : Mnemonic.all.map (fun m => (opcodeOf m).toNat) = [1, 2, 3, 4, 5, 6, 7, 8, 9, 10, 11, 12, 13, 255] := rfl
  simp [← hvalues, mem_all, BitVec.toNat_inj]

/-- The bytes that are nobody's opcode in the map of R74 (decision D3, log 1). -/
theorem forall_opcodeOf_ne_iff (op : Byte) :
    (∀ m, opcodeOf m ≠ op) ↔ op = 0 ∨ 0x0E ≤ op.toNat ∧ op.toNat ≤ 0xFE := by
  have hzero : op = 0 ↔ op.toNat = 0 := BitVec.toNat_inj.symm
  have hlt := op.isLt
  rw [forall_opcodeOf_ne_iff_not_mem, hzero]
  simp only [List.mem_cons, List.not_mem_nil, or_false]
  omega

/-- Settles O48: rejected is what is nobody's opcode, and those bytes are the ones outside the table of R74. -/
theorem illegalOpcodesAreExactlyTheRest : Obligations.IllegalOpcodesAreExactlyTheRest := by
  intro op x y rest
  rw [← forall_opcodeOf_ne_iff]
  exact ⟨decode_illegalOpcode_iff op rest, exists_decode_ok_iff op x y⟩

end Sys2Proof

/-! PROOFS. Bytes written to memory are read back and executed: placed code, the load and the loaded image (spec/20_memory.md R43 to R46,
spec/70_reset_and_hazards.md R281). -/

namespace Sys2Proof.Machine

/-! ## Writing many bytes -/

/-- Address `k + 1` bytes further on is `k` bytes further on from the next address. -/
theorem add_ofNat_succ (a : Byte) (k : Nat) : a + BitVec.ofNat 8 (k + 1) = a + 1 + BitVec.ofNat 8 k := by
  rw [BitVec.add_assoc, BitVec.add_comm 1, BitVec.ofNat_add]
  rfl

/-- Fewer than 256 bytes further on is another address. -/
theorem add_ofNat_ne_self (a : Byte) {k : Nat} (hpos : 0 < k) (hlt : k < 256) : a + BitVec.ofNat 8 k ≠ a := by
  intro h
  have := congrArg BitVec.toNat h
  have := a.isLt
  simp only [BitVec.toNat_add, BitVec.toNat_ofNat] at *
  omega

/-- An address that no byte is written to reads as before. -/
theorem read_writeMany_of_forall_ne (m : Memory) {a x : Byte} {bs : List Byte}
    (h : ∀ k < bs.length, a + BitVec.ofNat 8 k ≠ x) : (m.writeMany a bs).read x = m.read x := by
  induction bs generalizing m a with
  | nil => rfl
  | cons b bs ih =>
    have hhead : x ≠ a := by simpa using (h 0 (Nat.zero_lt_succ _)).symm
    have htail : ∀ k < bs.length, a + 1 + BitVec.ofNat 8 k ≠ x := fun k hk =>
      add_ofNat_succ a k ▸ h (k + 1) (Nat.succ_lt_succ hk)
    exact (ih (m.write a b) htail).trans (read_write_other m b hhead)

/-- At most 256 bytes written one after another, wrapping, are all read back. -/
theorem read_writeMany {m : Memory} (hm : m.wf = true) (a : Byte) {bs : List Byte} (hlen : bs.length ≤ 256) {k : Nat}
    {v : Byte} (hk : bs[k]? = some v) : (m.writeMany a bs).read (a + BitVec.ofNat 8 k) = v := by
  induction bs generalizing m a k with
  | nil => cases hk
  | cons b bs ih =>
    rw [List.length_cons] at hlen
    cases k with
    | zero =>
      obtain rfl : b = v := by simpa using hk
      have hlater : ∀ j < bs.length, a + 1 + BitVec.ofNat 8 j ≠ a := fun j hj =>
        add_ofNat_succ a j ▸ add_ofNat_ne_self a (Nat.succ_pos j) (by omega)
      calc (m.writeMany a (b :: bs)).read (a + BitVec.ofNat 8 0)
          = ((m.write a b).writeMany (a + 1) bs).read a := by simp [Memory.writeMany]
        _ = (m.write a b).read a := read_writeMany_of_forall_ne _ hlater
        _ = b := read_write_same a b hm
    | succ k =>
      rw [add_ofNat_succ]
      exact ih (wf_write a b hm) (a + 1) (by omega) (by simpa using hk)

/-! ## An encoding at `pc` is executed -/

/-- The bytes a tick decodes begin with the bytes that memory holds from `pc` on. -/
theorem prefix_codeWindow {s : State} {bs : List Byte} (hlen : bs.length ≤ maxLength)
    (h : ∀ (k : Nat) (v : Byte), bs[k]? = some v → s.mem.read (s.pc + BitVec.ofNat 8 k) = v) : bs <+: codeWindow s := by
  rw [List.prefix_iff_getElem?]
  intro k hk
  rw [← h k bs[k] (List.getElem?_eq_getElem hk), codeWindow_eq]
  obtain rfl | rfl | rfl : k = 0 ∨ k = 1 ∨ k = 2 := by simp only [maxLength] at hlen; omega
  · simp
  · rfl
  · rfl

/-- No encoding is longer than the longest instruction, under any opcode map (30_encoding.md R70). -/
theorem length_encodeWith_le (opc : Mnemonic → Byte) (i : Instr) : (encodeWith opc i).length ≤ maxLength := by
  have hlen : (encodeWith opc i).length = lengthOf i := by cases i <;> rfl
  exact hlen ▸ lengthOf_le i

/-- While the run goes on, an instruction whose encoding stands at `pc` is executed (30_encoding.md R77). -/
theorem tickIfEnabled_of_encoding_at_pc {opc : Mnemonic → Byte} (hopc : Function.Injective opc) {s : State} {i : Instr}
    (hlive : Live s)
    (h : ∀ (k : Nat) (v : Byte), (encodeWith opc i)[k]? = some v → s.mem.read (s.pc + BitVec.ofNat 8 k) = v) :
    tickIfEnabled opc s = exec i s := by
  obtain ⟨rest, hrest⟩ := prefix_codeWindow (length_encodeWith_le opc i) h
  refine tickIfEnabled_of_decoded (rest := rest) hlive ?_
  rw [fetchDecode, ← hrest]
  exact decodeOfEncodeUnderAnyOpcodeMap opc i rest hopc

/-- Settles O28: the bytes placed are read back from `pc` on, at most three of them. -/
theorem placedInstructionRunsUnderAnyOpcodeMap : Obligations.PlacedInstructionRunsUnderAnyOpcodeMap := by
  intro opc i s hopc hm hlive
  refine tickIfEnabled_of_encoding_at_pc hopc (s := placeCode s (encodeWith opc i)) hlive fun k v hk => ?_
  exact read_writeMany hm s.pc ((length_encodeWith_le opc i).trans (by decide)) hk

/-! ## The load (70_reset_and_hazards.md R281) -/

/-- An image that fits is copied and the run starts (R281). -/
theorem loadImage_of_le {ps : Config.ProgSize} {image : List Byte} {s : State} (hload : s.loaded = .notLoaded)
    (hlen : image.length ≤ ps.size) :
    loadImage ps image s = some { s with mem := copyImage s.mem image, running := true, loaded := .loaded } := by
  simp [loadImage, hload, hlen]

/-- An image that does not fit is refused, with nothing written but the load's result (R281). -/
theorem loadImage_of_lt {ps : Config.ProgSize} {image : List Byte} {s : State} (hload : s.loaded = .notLoaded)
    (hlen : ps.size < image.length) : loadImage ps image s = some { s with loaded := .refused } := by
  simp [loadImage, hload, hlen]

/-- Byte `k` of a copied image is read at address `k` (R281). -/
theorem read_copyImage {m : Memory} (hm : m.wf = true) {image : List Byte} (hlen : image.length ≤ 256) {k : Nat} {v : Byte}
    (hk : image[k]? = some v) : (copyImage m image).read (BitVec.ofNat 8 k) = v := by
  simpa [copyImage] using read_writeMany hm 0 hlen hk

/-- Copying an image leaves the bytes behind it (R281). -/
theorem read_copyImage_of_le (m : Memory) {image : List Byte} {x : Byte} (hx : image.length ≤ x.toNat) :
    (copyImage m image).read x = m.read x := by
  refine read_writeMany_of_forall_ne m fun k hk h => ?_
  have hnat := congrArg BitVec.toNat h
  have hlt := x.isLt
  rw [zero_add, BitVec.toNat_ofNat] at hnat
  omega

/-- Settles O41: the image is copied to address 0, and nothing else of the state is written but the run state. -/
theorem loadCopiesTheImage : Obligations.LoadCopiesTheImage := by
  intro ps image s hm hload hfault hlen
  refine ⟨_, loadImage_of_le hload hlen, fun k v => read_copyImage hm (hlen.trans ps.le_mem),
    fun x => read_copyImage_of_le s.mem, ⟨rfl, hfault⟩, ?_, rfl, rfl, rfl, rfl, ⟨rfl, rfl, rfl, rfl⟩⟩
  simp [statusOf, hfault]

/-! ## A loaded image runs -/

/-- Byte `k` of the middle part of an image. -/
theorem getElem?_append_middle {front middle : List Byte} (back : List Byte) {k : Nat} {v : Byte}
    (hk : middle[k]? = some v) : (front ++ (middle ++ back))[front.length + k]? = some v := by
  obtain ⟨hlt, -⟩ := List.getElem?_eq_some_iff.1 hk
  rw [List.getElem?_append_right (Nat.le_add_right _ _), Nat.add_sub_cancel_left, List.getElem?_append_left hlt, hk]

/-- Settles O44: the instruction's encoding stands in the image at its offset, so after the load it stands at `pc`. -/
theorem loadedImageRunsItsInstructions : Obligations.LoadedImageRunsItsInstructions := by
  intro ps before i after t u hlen hload hsame hlive hpc
  refine tickIfEnabled_of_encoding_at_pc opcodeOf_injective hlive fun k v hk => ?_
  obtain rfl := Option.some.inj ((loadImage_of_le rfl hlen).symm.trans hload)
  have haddr : u.pc + BitVec.ofNat 8 k = BitVec.ofNat 8 ((before.flatMap encode).length + k) := by
    rw [BitVec.ofNat_add, ← hpc, BitVec.ofNat_toNat, BitVec.setWidth_eq]
  rw [hsame, haddr]
  refine read_copyImage rfl (hlen.trans ps.le_mem) ?_
  rw [List.flatMap_append, List.flatMap_cons]
  exact getElem?_append_middle (after.flatMap encode) hk

end Sys2Proof.Machine

/-! PROOFS. Lines, tokens and literals of a source text (spec/50_assembler.md R201, R203, R214). -/

namespace Sys2Proof.Machine

/-! ## Lines (R201) -/

/-- A character other than a line feed belongs to the line it stands before (R201). -/
theorem splitLines_cons_of_ne {c : Byte} {cs l : List Byte} {ls : List (List Byte)} (hc : c ≠ lineFeed)
    (h : splitLines cs = l :: ls) : splitLines (c :: cs) = (c :: l) :: ls := by
  rw [splitLines, if_neg hc, h]

/-- A line feed cuts off the line before it (R201). -/
theorem splitLines_append_lineFeed {line : List Byte} (rest : List Byte) (h : lineFeed ∉ line) :
    splitLines (line ++ lineFeed :: rest) = line :: splitLines rest := by
  induction line with
  | nil => exact splitLines_lineFeed rest
  | cons c cs ih =>
    obtain ⟨hc, hcs⟩ := List.ne_and_not_mem_of_not_mem_cons h
    exact splitLines_cons_of_ne hc.symm (ih hcs)

/-- A last line without a line feed is a line (R201). -/
theorem splitLines_of_not_mem {line : List Byte} (h : lineFeed ∉ line) (hne : line ≠ []) : splitLines line = [line] := by
  induction line with
  | nil => exact absurd rfl hne
  | cons c cs ih =>
    obtain ⟨hc, hcs⟩ := List.ne_and_not_mem_of_not_mem_cons h
    cases cs with
    | nil => rw [splitLines, if_neg hc.symm, splitLines]
    | cons d ds => exact splitLines_cons_of_ne hc.symm (ih hcs (List.cons_ne_nil d ds))

/-! ## Tokens (R203) -/

/-- The whitespace test is membership in the five whitespace bytes (R203; decision D20). -/
theorem isSpace_iff (c : Byte) : isSpace c = true ↔ Whitespace c := by
  simp [isSpace, Whitespace, or_assoc]

/-- A word is read whole and is no token of its own until whitespace or the end of the line follows (R203). -/
theorem tokensFrom_of_isWord {w : Token} (hw : IsWord w) (rest : List Byte) :
    tokensFrom [] (w ++ rest) = tokensFrom w rest :=
  tokensFrom_word [] w rest fun c hc => Bool.eq_false_iff.2 ((isSpace_iff c).not.2 (hw.2 c hc))

/-- Any amount of whitespace where no token is being read gives none (R203). -/
theorem tokensFrom_of_forall_whitespace {gap : List Byte} (hgap : ∀ c ∈ gap, Whitespace c) (rest : List Byte) :
    tokensFrom [] (gap ++ rest) = tokensFrom [] rest :=
  tokensFrom_blanks gap rest fun c hc => (isSpace_iff c).2 (hgap c hc)

/-- Whitespace ends a word, whatever its amount (R203). -/
theorem tokensFrom_word_gap {w : Token} {gap : List Byte} (hw : IsWord w) (hne : gap ≠ [])
    (hgap : ∀ c ∈ gap, Whitespace c) (rest : List Byte) :
    tokensFrom [] (w ++ (gap ++ rest)) = w :: tokensFrom [] rest := by
  rw [tokensFrom_of_isWord hw]
  obtain ⟨c, cs, rfl⟩ := List.exists_cons_of_ne_nil hne
  obtain ⟨hc, hcs⟩ := List.forall_mem_cons.1 hgap
  rw [List.cons_append, tokensFrom, if_pos ((isSpace_iff c).2 hc), tokensFrom_of_forall_whitespace hcs, flushToken,
    if_neg (by simpa using hw.1)]
  rfl

/-- The last word of a line needs no whitespace behind it (R203). -/
theorem tokensFrom_last_word {w : Token} {gap : List Byte} (hw : IsWord w) (hgap : ∀ c ∈ gap, Whitespace c) :
    tokensFrom [] (w ++ gap) = [w] := by
  cases gap with
  | nil => rw [tokensFrom_of_isWord hw, tokensFrom, flushToken, if_neg (by simpa using hw.1)]
  | cons c cs => simpa [tokensFrom, flushToken] using tokensFrom_word_gap hw (List.cons_ne_nil c cs) hgap []

/-- Words with whitespace behind each are the first tokens (R203). -/
theorem tokensFrom_words {front : List (Token × List Byte)}
    (h : ∀ p ∈ front, IsWord p.1 ∧ p.2 ≠ [] ∧ ∀ c ∈ p.2, Whitespace c) (rest : List Byte) :
    tokensFrom [] (front.flatMap (fun p => p.1 ++ p.2) ++ rest) = front.map (·.1) ++ tokensFrom [] rest := by
  induction front with
  | nil => rfl
  | cons p ps ih =>
    obtain ⟨⟨hw, hne, hgap⟩, hps⟩ := List.forall_mem_cons.1 h
    rw [List.flatMap_cons, List.append_assoc, List.append_assoc, tokensFrom_word_gap hw hne hgap, ih hps]
    rfl

/-- Settles O50: lines by `splitLines`, and tokens by reading the words and the whitespace between them one after another. -/
theorem linesAndTokensAreReadBack : Obligations.LinesAndTokensAreReadBack := by
  refine ⟨rfl, fun _ rest h => splitLines_append_lineFeed rest h, fun _ => splitLines_of_not_mem, isSpace_iff,
    fun blanks hblanks => ?_, fun before after front last hbefore hafter hlast hfront => ?_⟩
  · simpa [tokens, tokensFrom, flushToken] using tokensFrom_of_forall_whitespace hblanks []
  · rw [tokens, List.append_assoc, List.append_assoc, tokensFrom_of_forall_whitespace hbefore, tokensFrom_words hfront,
      tokensFrom_last_word hlast hafter]

/-! ## Literals (R214) -/

/-- Characters that are digits of a base have the value of these digits in that base (R214). -/
theorem digitsFrom_map {α : Type} {base : Nat} {char : α → Byte} {val : α → Nat}
    (h : ∀ e, digitIn base (char e) = some (val e)) (acc : Nat) (es : List α) :
    digitsFrom base acc (es.map char) = some (es.foldl (fun acc e => acc * base + val e) acc) := by
  induction es generalizing acc with
  | nil => rfl
  | cons e es ih => simpa [digitsFrom, h] using ih (acc * base + val e)

/-- A hexadecimal digit in either case has its value in base 16 (R214). -/
theorem digitIn_hexDigit (e : Fin 16 × Bool) : digitIn 16 (hexDigit e) = some e.1.val := by
  revert e
  decide

/-- The character of a digit below 8 is that digit in base 8, and it is neither `x` nor `X` (R214). -/
theorem digitIn_octal (e : Fin 8) : digitIn 8 (BitVec.ofNat 8 (0x30 + e.val)) = some e.val ∧
    ¬(BitVec.ofNat 8 (0x30 + e.val) = 0x78 ∨ BitVec.ofNat 8 (0x30 + e.val) = 0x58) := by
  revert e
  decide

/-- The character of a decimal digit is that digit (R214). -/
theorem digitIn_decimal (e : Fin 10) : digitIn 10 (BitVec.ofNat 8 (0x30 + e.val)) = some e.val ∧
    digitValue (BitVec.ofNat 8 (0x30 + e.val)) = some e.val := by
  revert e
  decide

/-- A token that begins with `0` is read by what follows the `0` (R214). -/
theorem parseLiteral_zero (cs : Token) : parseLiteral (0x30 :: cs) = zeroLiteral cs := rfl

/-- After `0x` or `0X` the digits are read in base 16 (R214). -/
theorem zeroLiteral_hex {x : Byte} (hx : x = 0x78 ∨ x = 0x58) (d : Byte) (ds : Token) :
    zeroLiteral (x :: d :: ds) = literalOf (digitsFrom 16 0 (d :: ds)) := by
  simp only [zeroLiteral, if_pos hx]

/-- After `0` other digits are read in base 8 (R214). -/
theorem zeroLiteral_octal {c : Byte} (hc : ¬(c = 0x78 ∨ c = 0x58)) (cs : Token) :
    zeroLiteral (c :: cs) = literalOf (digitsFrom 8 0 (c :: cs)) := by
  simp only [zeroLiteral, if_neg hc]

/-- A token that begins with another digit is read in base 10 (R214). -/
theorem parseLiteral_decimal {c : Byte} {d : Nat} (hd : digitValue c = some d) (hne : d ≠ 0) (cs : Token) :
    parseLiteral (c :: cs) = literalOf (digitsFrom 10 d cs) := by
  obtain ⟨n, rfl⟩ := Nat.exists_eq_succ_of_ne_zero hne
  simp only [parseLiteral, hd]

/-- Settles O51: the first characters choose the base, and the digits have their value in it. -/
theorem literalsHaveTheirValues : Obligations.LiteralsHaveTheirValues := by
  refine ⟨fun x d ds hx => ?_, fun ds => ?_, fun d ds hd => ?_⟩
  · rw [parseLiteral_zero, List.map_cons, zeroLiteral_hex hx, ← List.map_cons, digitsFrom_map digitIn_hexDigit]
    rfl
  · rw [parseLiteral_zero]
    cases ds with
    | nil => rfl
    | cons e es =>
      rw [List.map_cons, zeroLiteral_octal (digitIn_octal e).2,
        ← List.map_cons (f := fun e : Fin 8 => BitVec.ofNat 8 (0x30 + e.val)), digitsFrom_map fun e => (digitIn_octal e).1]
      rfl
  · rw [List.map_cons, parseLiteral_decimal (digitIn_decimal d).2 hd, digitsFrom_map fun e => (digitIn_decimal e).1,
      List.foldl_cons, Nat.zero_mul, Nat.zero_add]
    rfl

end Sys2Proof.Machine

/-! PROOFS. Pass 2 line by line: the first bad operand, the lengths of the passes, and the program an image encodes
(spec/50_assembler.md R207 to R217, spec/70_reset_and_hazards.md R287). -/

namespace Sys2Proof.Machine

section
variable {opc : Mnemonic → Byte} {hostIntMax n : Nat} {symtab : Symtab}

/-! ## Lines emitted one after another (R210) -/

/-- Lines that emit, emit in both parts of any cut (R210). -/
theorem emitLines_append_ok {before after : List Line} {bs : List Byte}
    (h : emitLines opc hostIntMax symtab n (before ++ after) = .ok bs) :
    ∃ front back, emitLines opc hostIntMax symtab n before = .ok front ∧ bs = front ++ back := by
  induction before generalizing n bs with
  | nil => exact ⟨[], bs, rfl, rfl⟩
  | cons l ls ih =>
    obtain ⟨first, rest, hfirst, hrest, rfl⟩ := emitLines_cons h
    obtain ⟨front, back, hfront, rfl⟩ := ih hrest
    exact ⟨first ++ front, back, by simp [emitLines, hfirst, hfront], by simp⟩

/-- Behind lines that emit, the first line that fails makes pass 2 fail, whatever stands after it (R216; decision D21). -/
theorem emitLines_fail_of_line {before : List Line} {l : Line} {out : List Byte} {reason : AsmFailure} (after : List Line)
    (hbefore : emitLines opc hostIntMax symtab n before = .ok out)
    (hl : emitLine opc hostIntMax symtab (n + before.length) l = .fail reason) :
    emitLines opc hostIntMax symtab n (before ++ l :: after) = .fail reason := by
  induction before generalizing n out with
  | nil =>
    have hfirst : emitLine opc hostIntMax symtab n l = .fail reason := hl
    simp [emitLines, hfirst]
  | cons b bs ih =>
    obtain ⟨first, rest, hfirst, hrest, -⟩ := emitLines_cons hbefore
    have hlater := ih hrest (by rwa [List.length_cons, ← Nat.add_assoc, Nat.add_right_comm] at hl)
    simp [emitLines, hfirst, hlater]

/-! ## The first bad operand (R216) -/

/-- Behind tokens that give bytes, the first token that fails decides, whatever stands after it (R216; log 22). -/
theorem resolveOperands_fail_of_token {good : List Token} {t : Token} {reason : AsmFailure} (bad : List Token)
    (hgood : ∀ g ∈ good, ∃ b, resolveOperand hostIntMax symtab n g = .byte b)
    (ht : resolveOperand hostIntMax symtab n t = .fail reason) :
    resolveOperands hostIntMax symtab n (good ++ t :: bad) = .fail reason := by
  induction good with
  | nil => simp [resolveOperands, ht]
  | cons g gs ih =>
    obtain ⟨⟨b, hb⟩, hgs⟩ := List.forall_mem_cons.1 hgood
    simp [resolveOperands, hb, ih hgs]

/-- A line with a known mnemonic fails when its operands do (R216). -/
theorem emitLine_fail_of_operands (opc : Mnemonic → Byte) (m : Mnemonic) {operands : List Token} {reason : AsmFailure}
    (h : resolveOperands hostIntMax symtab n operands = .fail reason) :
    emitLine opc hostIntMax symtab n (.code (spelling m) operands) = .fail reason := by
  simp [emitLine, h]

/-- Pass 2 fails when its lines do (R216). -/
theorem pass2_fail_of_emitLines {lines : List Line} {reason : AsmFailure}
    (h : emitLines opc hostIntMax symtab 1 lines = .fail reason) :
    pass2 opc hostIntMax symtab lines = .fail reason := by
  simp [pass2, h]

/-! ## The lengths of the two passes (R207, R210) -/

/-- A line whose mnemonic is known emits as many bytes as pass 1 counts for it (R208, R215). -/
theorem emitLine_length {l : Line} {bs : List Byte} (h : emitLine opc hostIntMax symtab n l = .ok bs)
    (hknown : ∀ head operands, l = .code head operands → (lookupMnemonic head).isSome = true) :
    bs.length = lineSize l := by
  cases l with
  | blank => cases h; rfl
  | label name => cases h; rfl
  | code head operands =>
    obtain ⟨m, hm⟩ := Option.isSome_iff_exists.1 (hknown head operands rfl)
    obtain ⟨args, hargs, rfl⟩ := emitLine_known hm h
    rw [List.length_cons, resolveOperands_length hargs, lineSize, Nat.add_comm]

/-- Lines whose mnemonics are all known emit as many bytes as pass 1 counts for them (R208, R215). -/
theorem emitLines_length {ls : List Line} {bs : List Byte} (h : emitLines opc hostIntMax symtab n ls = .ok bs)
    (hknown : ∀ head operands, .code head operands ∈ ls → (lookupMnemonic head).isSome = true) :
    bs.length = (ls.map lineSize).sum := by
  induction ls generalizing n bs with
  | nil => cases h; rfl
  | cons l ls ih =>
    obtain ⟨front, rest, hfront, hrest, rfl⟩ := emitLines_cons h
    have hl := emitLine_length hfront fun head operands e => hknown head operands (e ▸ List.mem_cons_self)
    have hls := ih hrest fun head operands hmem => hknown head operands (List.mem_cons_of_mem l hmem)
    rw [List.length_append, hl, hls, List.map_cons, List.sum_cons]

/-- In a table without duplicates every entry is the one looked up (R209, R222). -/
theorem lookupLabel_of_mem {name : Token} {v : Nat} (hdistinct : labelsDistinct symtab = true)
    (hmem : (name, v) ∈ symtab) : lookupLabel symtab name = some v := by
  rw [labelsDistinct, decide_eq_true_eq] at hdistinct
  induction symtab with
  | nil => cases hmem
  | cons e st ih =>
    obtain ⟨hnew, hrest⟩ := List.nodup_cons.1 hdistinct
    rcases List.mem_cons.1 hmem with rfl | hmem'
    · simp [lookupLabel]
    · have hne : e.1 ≠ name := fun heq => hnew (List.mem_map.2 ⟨_, hmem', heq.symm⟩)
      simpa [lookupLabel, hne] using ih hrest hmem'

/-! ## The program an image encodes (R287) -/

/-- Operand tokens that emit, each resolve to the byte at their place (R210). -/
theorem forall₂_of_resolveOperands {ts : List Token} {bs : List Byte}
    (h : resolveOperands hostIntMax symtab n ts = .ok bs) :
    List.Forall₂ (fun t b => ∃ n, resolveOperand hostIntMax symtab n t = .byte b) ts bs := by
  induction ts generalizing bs with
  | nil => cases h; exact .nil
  | cons t ts ih =>
    simp only [resolveOperands] at h
    split at h
    · next hb =>
      split at h
      · next hrest => cases h; exact .cons ⟨n, hb⟩ (ih hrest)
      · cases h
      · cases h
    · cases h
    · cases h

/-- As many bytes as a mnemonic consumes are the operands of an instruction with that mnemonic (30_encoding.md R75). -/
theorem takeOperands_of_length {m : Mnemonic} {bs : List Byte} (h : bs.length = operandCount m) :
    ∃ i, takeOperands m bs = .ok i [] := by
  cases m with
  | add | sub | mul | div | hlt =>
    obtain rfl := List.length_eq_zero_iff.1 h
    exact ⟨_, rfl⟩
  | lda | ldb | outv | sta | ldm | jez | jnz | inp =>
    obtain ⟨x, rfl⟩ := List.length_eq_one_iff.1 h
    exact ⟨_, rfl⟩
  | ld =>
    obtain ⟨x, y, rfl⟩ := List.length_eq_two.1 h
    exact ⟨_, rfl⟩

/-- A line that keeps the arity contract emits the encoding of the instruction it writes (R210, R287). -/
theorem emitLine_is_encoding {head : Token} {operands : List Token} {m : Mnemonic} {bs : List Byte}
    (hm : lookupMnemonic head = some m) (harity : arityOk m operands.length = true)
    (h : emitLine opc hostIntMax symtab n (.code head operands) = .ok bs) :
    ∃ i, InstrWritten hostIntMax symtab (m, operands) i ∧ bs = encodeWith opc i := by
  obtain ⟨args, hargs, rfl⟩ := emitLine_known hm h
  have hlen : args.length = operandCount m := (resolveOperands_length hargs).trans (by simpa [arityOk] using harity)
  obtain ⟨i, hi⟩ := takeOperands_of_length hlen
  obtain ⟨rfl, rfl⟩ := operands_of_taken hi
  rw [List.append_nil] at hargs ⊢
  exact ⟨i, ⟨rfl, forall₂_of_resolveOperands hargs⟩, rfl⟩

/-- A program that begins with an instruction line begins with that line's mnemonic, whose arity is kept (R287). -/
theorem programOf_code {head : Token} {operands : List Token} {ls : List Line} {lines : List (Mnemonic × List Token)}
    (h : programOf (.code head operands :: ls) = some lines) :
    ∃ m rest, lookupMnemonic head = some m ∧ arityOk m operands.length = true ∧ programOf ls = some rest ∧
      lines = (m, operands) :: rest := by
  simp only [programOf] at h
  split at h
  · cases h
  · next m hm =>
    split at h
    · next harity =>
      obtain ⟨rest, hrest, rfl⟩ := Option.map_eq_some_iff.1 h
      exact ⟨m, rest, hm, harity, hrest, rfl⟩
    · cases h

/-- Lines that keep the arity contract emit the encodings of the instructions they write, in line order (R210, R287). -/
theorem emitLines_is_program {ls : List Line} {lines : List (Mnemonic × List Token)} {bs : List Byte}
    (h : emitLines opc hostIntMax symtab n ls = .ok bs) (hlines : programOf ls = some lines) :
    ∃ prog : List Instr,
      List.Forall₂ (InstrWritten hostIntMax symtab) lines prog ∧ bs = prog.flatMap (encodeWith opc) := by
  induction ls generalizing n lines bs with
  | nil => cases h; cases hlines; exact ⟨[], .nil, rfl⟩
  | cons l ls ih =>
    obtain ⟨front, back, hfront, hback, rfl⟩ := emitLines_cons h
    cases l with
    | blank => cases hfront; exact ih hback hlines
    | label name => cases hfront; exact ih hback hlines
    | code head operands =>
      obtain ⟨m, rest, hm, harity, hrest, rfl⟩ := programOf_code hlines
      obtain ⟨i, hi, rfl⟩ := emitLine_is_encoding hm harity hfront
      obtain ⟨prog, hprog, rfl⟩ := ih hback hrest
      exact ⟨i :: prog, .cons hi hprog, rfl⟩

end

/-! ## The whole of pass 2, the encoder and the loaded program -/

/-- Settles O56: the token fails, so its line does, so the lines do, so pass 2 does. -/
theorem firstBadOperandAborts : Obligations.FirstBadOperandAborts := by
  intro opc hostIntMax symtab before after m good bad t out hbefore hgood hlookup hlit
  have htoken := resolveOperand_of_invalid hostIntMax (before.length + 1) hlookup hlit
  have hline := emitLine_fail_of_operands opc m (resolveOperands_fail_of_token bad hgood htoken)
  exact pass2_fail_of_emitLines (emitLines_fail_of_line after hbefore (Nat.add_comm .. ▸ hline))

/-- Settles O57: both passes count the same bytes for the lines before any line, and the distinct labels are looked up. -/
theorem passLengthsAgree : Obligations.PassLengthsAgree := by
  intro opc hostIntMax text image hasm hknown
  obtain ⟨-, hdistinct, -, hemit⟩ := assembleWith_ok hasm
  obtain ⟨-, -, -, -, -, hpass1⟩ := passOneBindsLabelsToByteCounts
  obtain ⟨hcounter, hlabels⟩ := hpass1 (parseLines text)
  refine ⟨(emitLines_length hemit hknown).trans hcounter.symm, fun before after name hsplit => ?_⟩
  have hlookup := lookupLabel_of_mem hdistinct ((hlabels name _).2 ⟨before, after, hsplit, rfl⟩)
  generalize (pass1 (parseLines text)).1 = symtab at hemit hlookup ⊢
  rw [hsplit] at hemit hknown
  obtain ⟨front, back, hfront, rfl⟩ := emitLines_append_ok hemit
  have hlen := emitLines_length hfront fun head operands hmem => hknown head operands (List.mem_append_left _ hmem)
  exact ⟨front, back, hfront, rfl, hlen ▸ hlookup⟩

/-- Settles O58: a successful run is a pass 2 whose lines emitted the image. -/
theorem assembledImageIsTheProgram : Obligations.AssembledImageIsTheProgram := by
  intro opc hostIntMax text image lines hasm hlines
  obtain ⟨-, -, -, hemit⟩ := assembleWith_ok hasm
  exact emitLines_is_program hemit hlines

/-- Settles O59: the image is the program's encodings (O58), and a loaded image of encodings runs them (O44). -/
theorem sourceProgramRunsAsWritten : Obligations.SourceProgramRunsAsWritten := by
  intro hostIntMax text image lines ps t hasm hlines hlen hstart
  obtain ⟨prog, hprog, rfl⟩ := assembledImageIsTheProgram opcodeOf hostIntMax text image lines hasm hlines
  refine ⟨prog, hprog, fun before i after u hsplit => ?_⟩
  subst hsplit
  exact loadedImageRunsItsInstructions ps before i after t u hlen hstart

end Sys2Proof.Machine

/-! PROOFS. What each instruction does and leaves (spec/41_load_immediate.md, 42_arithmetic.md, 43_memory_access.md, 44_io.md). -/

namespace Sys2Proof.Machine

/-! ## ADD, SUB, MUL and DIV -/

/-- The byte of an unbounded result is 0 exactly when the result is a multiple of 256 (R134). -/
theorem byteResult_eq_zero_iff (raw : Int) : byteResult raw = 0 ↔ raw % 256 = 0 := by
  rw [← byteResult_toNat, Int.natCast_eq_zero, ← BitVec.toNat_inj]
  rfl

/-- Settles O4: bit 1 is the zero rule of the machine, which tests the byte written to A. -/
theorem zeroFlagTestsTheByteWritten : Obligations.ZeroFlagTestsTheByteWritten := by
  intro s i raw hraw
  have hflag : flagAt (arithFlags s.flags raw) 1 = true ↔ byteResult raw = 0 := by
    simp [flagAt_arithFlags, zeroRule_machine]
  exact ⟨_, exec_of_rawResult hraw, hflag, hflag.trans (byteResult_eq_zero_iff raw)⟩

/-- ADD, SUB and MUL write no bit of FLAGS but 1 and 2 (R137). -/
theorem sameFlagsBut_arith (s : State) (raw : Int) : SameFlagsBut [1, 2] s (arith (advance 1 s) raw) := by
  intro k hk
  simp only [List.mem_cons, List.not_mem_nil, or_false, not_or] at hk
  exact (flagAt_arithFlags s.flags raw k).trans (by rw [if_neg hk.2, if_neg hk.1])

/-- Settles O5: an unbounded result writes A, two flags and `pc` only. -/
theorem addSubMulFrame : Obligations.AddSubMulFrame := by
  intro i hi s
  obtain ⟨raw, hraw⟩ := exists_rawResult_forall_flags s hi
  exact ⟨_, exec_of_rawResult (hraw s.flags), rfl, pc_add_toNat s 1, sameFlagsBut_arith s raw, fun _ => rfl,
    ⟨rfl, rfl, rfl, rfl⟩, ⟨rfl, rfl, rfl⟩⟩

/-- Writing the flag of DIV leaves every other bit (R137; decision D7, log 8). -/
theorem flagAt_setFlag_dz_of_ne (f : Byte) (v : Bool) {k : Nat} (hk : k ∉ [3]) :
    flagAt (setFlag f .dz v) k = flagAt f k :=
  (flagAt_setFlag f .dz v k).trans (if_neg (List.ne_of_not_mem_cons hk))

/-- A quotient of bytes is a byte (R133). -/
theorem ofNat_div_toNat (x y : Byte) : (BitVec.ofNat 8 (x.toNat / y.toNat)).toNat = x.toNat / y.toNat := by
  rw [BitVec.toNat_ofNat]
  exact Nat.mod_eq_of_lt (Nat.lt_of_le_of_lt (Nat.div_le_self _ _) x.isLt)

/-- Settles O6: with B not 0, DIV writes the quotient to A and clears bit 3. -/
theorem divGivesQuotient : Obligations.DivGivesQuotient := by
  intro s hb
  rcases execDiv_cases s with ⟨hzero, -⟩ | ⟨-, hdiv⟩
  · exact absurd hzero hb
  · exact ⟨_, hdiv, ofNat_div_toNat s.a s.b, flagAt_setFlag s.flags .dz false 3, rfl, pc_add_toNat s 1,
      fun _ hk => flagAt_setFlag_dz_of_ne s.flags false hk, fun _ => rfl, ⟨rfl, rfl, rfl, rfl⟩, ⟨rfl, rfl, rfl⟩⟩

/-- Settles O8: with B = 0, DIV writes `pc` and bit 3 only. -/
theorem divideByZeroFrame : Obligations.DivideByZeroFrame := fun s hb =>
  ⟨_, exec_div_of_zero hb, rfl, rfl, fun _ hk => flagAt_setFlag_dz_of_ne s.flags true hk, fun _ => rfl,
    ⟨rfl, rfl, rfl, rfl⟩, ⟨rfl, rfl, rfl⟩⟩

/-! ## Loads and stores -/

/-- Settles O9: LDA writes A and `pc` only. -/
theorem ldaLoadsTheLiteral : Obligations.LdaLoadsTheLiteral := fun imm s =>
  ⟨writeReg (advance 2 s) .a imm, rfl, rfl, pc_add_toNat s 2, rfl, fun _ _ => rfl, fun _ => rfl, ⟨rfl, rfl, rfl, rfl⟩,
    ⟨rfl, rfl, rfl⟩⟩

/-- Settles O10: LDB writes B and `pc` only. -/
theorem ldbLoadsTheLiteral : Obligations.LdbLoadsTheLiteral := fun imm s =>
  ⟨writeReg (advance 2 s) .b imm, rfl, rfl, pc_add_toNat s 2, rfl, fun _ _ => rfl, fun _ => rfl, ⟨rfl, rfl, rfl, rfl⟩,
    ⟨rfl, rfl, rfl⟩⟩

/-- Settles O11: STA is one write of A to memory, past its own two bytes. -/
theorem staStoresA : Obligations.StaStoresA := fun addr s hm =>
  ⟨_, execSta_eq addr s, read_write_same addr s.a hm, fun _ hx => read_write_other s.mem s.a hx, rfl, rfl,
    pc_add_toNat s 2, fun _ _ => rfl, ⟨rfl, rfl, rfl, rfl⟩, ⟨rfl, rfl, rfl⟩⟩

/-- Settles O12: LDM writes A and `pc` only. -/
theorem ldmLoadsA : Obligations.LdmLoadsA := fun addr s =>
  ⟨_, execLdm_eq addr s, rfl, rfl, pc_add_toNat s 2, fun _ _ => rfl, fun _ => rfl, ⟨rfl, rfl, rfl, rfl⟩,
    ⟨rfl, rfl, rfl⟩⟩

/-- Settles O13: LD writes the register its selector names and `pc` only. -/
theorem ldLoadsTheSelectedRegister : Obligations.LdLoadsTheSelectedRegister := fun addr s =>
  ⟨⟨writeReg (advance 3 s) .a (s.mem.read addr), rfl, rfl, rfl, pc_add_toNat s 3, fun _ _ => rfl, fun _ => rfl,
      ⟨rfl, rfl, rfl, rfl⟩, ⟨rfl, rfl, rfl⟩⟩,
    ⟨writeReg (advance 3 s) .b (s.mem.read addr), rfl, rfl, rfl, pc_add_toNat s 3, fun _ _ => rfl, fun _ => rfl,
      ⟨rfl, rfl, rfl, rfl⟩, ⟨rfl, rfl, rfl⟩⟩⟩

/-! ## Input and output -/

/-- Settles O16: OUTV writes Out and `pc` only. -/
theorem outvEmitsTheByte : Obligations.OutvEmitsTheByte := fun addr s =>
  ⟨pushOut (advance 2 s) (s.mem.read addr), rfl, rfl, rfl, rfl, pc_add_toNat s 2, fun _ _ => rfl, fun _ => rfl,
    ⟨rfl, rfl, rfl⟩, rfl, rfl, rfl⟩

/-- INP without input leaves the state it was given (R172; log 12). -/
theorem exec_inp_of_nil (addr : Byte) {s : State} (hin : s.input = []) : exec (.inp addr) s = .next s := by
  rcases execInp_cases addr s with ⟨-, h⟩ | ⟨v, rest, hcons, -⟩
  · exact h
  · cases hin.symm.trans hcons

/-- INP with input takes the head of In and stores it (R171). -/
theorem exec_inp_of_cons (addr : Byte) {s : State} {v : Byte} {rest : List Byte} (hin : s.input = v :: rest) :
    exec (.inp addr) s = .next (writeMem { advance 2 s with input := rest, inPos := s.inPos + 1 } addr v) := by
  rcases execInp_cases addr s with ⟨hnil, -⟩ | ⟨v', rest', hcons, h⟩
  · cases hin.symm.trans hnil
  · obtain ⟨rfl, rfl⟩ := List.cons.inj (hin.symm.trans hcons)
    exact h

/-- Settles O17: INP with input writes one byte of memory, In with its position, and `pc`. -/
theorem inpStoresTheNextInput : Obligations.InpStoresTheNextInput := fun addr v _ s hm hin =>
  ⟨_, exec_inp_of_cons addr hin, read_write_same addr v hm, fun _ hx => read_write_other s.mem v hx, rfl, rfl, rfl, rfl,
    pc_add_toNat s 2, fun _ _ => rfl, rfl, rfl, ⟨rfl, rfl, rfl⟩⟩

/-- Settles O15: a fetch is a read of the memory that STA or INP wrote. -/
theorem storesAreSeenByTheNextFetch : Obligations.StoresAreSeenByTheNextFetch := by
  intro addr s t u hm hmem hpc
  rw [fetch_byte, hmem, hpc]
  constructor
  · intro h
    cases (execSta_eq addr s).symm.trans h
    exact read_write_same addr s.a hm
  · intro v rest hin h
    cases (exec_inp_of_cons addr hin).symm.trans h
    exact read_write_same addr v hm

end Sys2Proof.Machine

/-! PROOFS. Everything an instruction can do, and what follows for its effect on each part of the state (spec/10_state.md). -/

namespace Sys2Proof.Machine

/-! ## The effects -/

/-- `i` in `s` leads to `t`: one constructor for each effect an instruction can have (spec/40_tick_and_dispatch.md R103). -/
inductive Executes (s : State) : Instr → State → Prop where
  | lda (imm : Byte) : Executes s (.lda imm) (writeReg (advance 2 s) .a imm)
  | ldb (imm : Byte) : Executes s (.ldb imm) (writeReg (advance 2 s) .b imm)
  | outv (addr : Byte) : Executes s (.outv addr) (pushOut (advance 2 s) (s.mem.read addr))
  | sta (addr : Byte) : Executes s (.sta addr) (writeMem (advance 2 s) addr s.a)
  | ldm (addr : Byte) : Executes s (.ldm addr) (writeReg (advance 2 s) .a (s.mem.read addr))
  | jez (addr : Byte) : Executes s (.jez addr) { s with pc := if getFlag s.flags .z then addr else s.pc + 2 }
  | jnz (addr : Byte) : Executes s (.jnz addr) { s with pc := if !getFlag s.flags .z then addr else s.pc + 2 }
  | ldA (addr : Byte) : Executes s (.ld 1 addr) (writeReg (advance 3 s) .a (s.mem.read addr))
  | ldB (addr : Byte) : Executes s (.ld 2 addr) (writeReg (advance 3 s) .b (s.mem.read addr))
  | hlt : Executes s .hlt (stopRunning (advance 1 s))
  | ldBad {sel : Byte} (addr : Byte) (h1 : sel ≠ 1) (h2 : sel ≠ 2) :
      Executes s (.ld sel addr) (pushDiag (advance 3 s) (.badRegisterSelector sel))
  | arith {i : Instr} {raw : Int} (hraw : RawResult s i raw) : Executes s i (arith (advance 1 s) raw)
  | divZero (hb : s.b = 0) : Executes s .div (writeFlag (advance 1 s) .dz true)
  | div (hb : s.b ≠ 0) :
      Executes s .div (writeFlag (writeReg (advance 1 s) .a (BitVec.ofNat 8 (s.a.toNat / s.b.toNat))) .dz false)
  | hold (addr : Byte) (hin : s.input = []) : Executes s (.inp addr) s
  | inp (addr : Byte) {v : Byte} {rest : List Byte} (hin : s.input = v :: rest) :
      Executes s (.inp addr) (writeMem { advance 2 s with input := rest, inPos := s.inPos + 1 } addr v)

/-- The effects are exactly what `exec` answers. -/
theorem exec_eq_next_iff {i : Instr} {s t : State} : exec i s = .next t ↔ Executes s i t := by
  constructor
  · intro h
    cases i with
    | lda imm => cases h; exact .lda imm
    | ldb imm => cases h; exact .ldb imm
    | outv addr => cases h; exact .outv addr
    | hlt => cases h; exact .hlt
    | jez addr => cases h; rw [jumpIf_eq]; exact .jez addr
    | jnz addr => cases h; rw [jumpIf_eq]; exact .jnz addr
    | add => cases h; exact .arith .add
    | sub => cases h; exact .arith .sub
    | mul => cases h; exact .arith .mul
    | sta addr => cases (execSta_eq addr s).symm.trans h; exact .sta addr
    | ldm addr => cases (execLdm_eq addr s).symm.trans h; exact .ldm addr
    | div =>
      rcases execDiv_cases s with ⟨hb, hdiv⟩ | ⟨hb, hdiv⟩ <;> cases hdiv.symm.trans h
      · exact .divZero hb
      · exact .div hb
    | inp addr =>
      rcases execInp_cases addr s with ⟨hin, hinp⟩ | ⟨v, rest, hin, hinp⟩ <;> cases hinp.symm.trans h
      · exact .hold addr hin
      · exact .inp addr hin
    | ld sel addr =>
      rcases execLd_cases sel addr s with ⟨rfl, hld⟩ | ⟨rfl, hld⟩ | ⟨h1, h2, hld⟩ <;> cases hld.symm.trans h
      · exact .ldA addr
      · exact .ldB addr
      · exact .ldBad addr h1 h2
  · intro h
    cases h with
    | sta addr => exact execSta_eq addr s
    | ldm addr => exact execLdm_eq addr s
    | jez addr => exact congrArg Host.Outcome.next (jumpIf_eq (getFlag s.flags .z) addr s)
    | jnz addr => exact congrArg Host.Outcome.next (jumpIf_eq (!getFlag s.flags .z) addr s)
    | ldBad addr h1 h2 => exact exec_ld_of_bad_selector addr s h1 h2
    | arith hraw => exact exec_of_rawResult hraw
    | divZero hb => exact exec_div_of_zero hb
    | div hb => exact if_neg hb
    | hold addr hin => exact exec_inp_of_nil addr hin
    | inp addr hin => exact exec_inp_of_cons addr hin
    | lda _ | ldb _ | outv _ | ldA _ | ldB _ | hlt => rfl

/-- An instruction with an unbounded result is ADD, SUB or MUL. -/
theorem eq_of_rawResult {s : State} {i : Instr} {raw : Int} (h : RawResult s i raw) : i = .add ∨ i = .sub ∨ i = .mul := by
  cases h with
  | add => exact .inl rfl
  | sub => exact .inr (.inl rfl)
  | mul => exact .inr (.inr rfl)

/-! ## The effect on each part of the state -/

section
variable {i : Instr} {s t : State} (h : exec i s = .next t)
include h

/-- No instruction writes FAULT or the load's result (10_state.md section 5). -/
theorem exec_fault_loaded : t.fault = s.fault ∧ t.loaded = s.loaded := by
  cases exec_eq_next_iff.1 h <;> exact ⟨rfl, rfl⟩

/-- No instruction but HLT writes RUNNING (R17). -/
theorem exec_running (hi : i ≠ .hlt) : t.running = s.running := by
  cases exec_eq_next_iff.1 h with
  | hlt => exact absurd rfl hi
  | _ => rfl

/-- Memory is written by STA and INP only, one byte at their address (20_memory.md section 1). -/
theorem exec_mem_cases :
    t.mem = s.mem ∨ ∃ addr v, (i = .sta addr ∨ i = .inp addr) ∧ t.mem = s.mem.write addr v := by
  cases exec_eq_next_iff.1 h with
  | sta addr => exact .inr ⟨addr, _, .inl rfl, rfl⟩
  | inp addr hin => exact .inr ⟨addr, _, .inr rfl, rfl⟩
  | _ => exact .inl rfl

/-- The instructions that write A (R11). -/
theorem exec_writer_of_a_ne (hne : t.a ≠ s.a) :
    (∃ imm, i = .lda imm) ∨ i = .add ∨ i = .sub ∨ i = .mul ∨ (i = .div ∧ s.b ≠ 0) ∨ (∃ x, i = .ldm x) ∨
      ∃ x, i = .ld 1 x := by
  cases exec_eq_next_iff.1 h with
  | lda imm => exact .inl ⟨imm, rfl⟩
  | arith hraw => exact .inr ((eq_of_rawResult hraw).imp_right (·.imp_right .inl))
  | div hb => exact .inr (.inr (.inr (.inr (.inl ⟨rfl, hb⟩))))
  | ldm addr => exact .inr (.inr (.inr (.inr (.inr (.inl ⟨addr, rfl⟩)))))
  | ldA addr => exact .inr (.inr (.inr (.inr (.inr (.inr ⟨addr, rfl⟩)))))
  | _ => exact absurd rfl hne

/-- The instructions that write B (R11). -/
theorem exec_writer_of_b_ne (hne : t.b ≠ s.b) : (∃ imm, i = .ldb imm) ∨ ∃ x, i = .ld 2 x := by
  cases exec_eq_next_iff.1 h with
  | ldb imm => exact .inl ⟨imm, rfl⟩
  | ldB addr => exact .inr ⟨addr, rfl⟩
  | _ => exact absurd rfl hne

/-- The instructions that write a bit of FLAGS, and which bits they write (R14; decisions D7 to D9). -/
theorem exec_writer_of_flagAt_ne {k : Nat} (hne : flagAt t.flags k ≠ flagAt s.flags k) :
    ((k = 1 ∨ k = 2) ∧ (i = .add ∨ i = .sub ∨ i = .mul)) ∨ (k = 3 ∧ i = .div) := by
  rcases exec_flags_cases h with hflags | ⟨raw, hraw, hflags⟩ | ⟨hdiv, hflags⟩ <;> rw [hflags] at hne
  · exact absurd rfl hne
  · rw [flagAt_arithFlags] at hne
    by_cases h2 : k = 2
    · exact .inl ⟨.inr h2, eq_of_rawResult hraw⟩
    · by_cases h1 : k = 1
      · exact .inl ⟨.inl h1, eq_of_rawResult hraw⟩
      · rw [if_neg h2, if_neg h1] at hne
        exact absurd rfl hne
  · by_cases h3 : k = 3
    · exact .inr ⟨h3, hdiv⟩
    · exact absurd (flagAt_setFlag_dz_of_ne s.flags _ (by simpa using h3)) hne

/-- Where `pc` goes: past the instruction, to the target of a taken jump, or nowhere in the hold of an INP (R12). -/
theorem exec_pc_cases :
    t.pc = s.pc + BitVec.ofNat 8 (lengthOf i) ∨
    (∃ addr, t.pc = addr ∧ (i = .jez addr ∧ flagAt s.flags 1 = true ∨ i = .jnz addr ∧ flagAt s.flags 1 = false)) ∨
    (∃ addr, i = .inp addr ∧ s.input = [] ∧ t = s) := by
  cases exec_eq_next_iff.1 h with
  | jez addr =>
    cases hz : flagAt s.flags 1 with
    | true => exact .inr (.inl ⟨addr, if_pos hz, .inl ⟨rfl, rfl⟩⟩)
    | false => exact .inl (if_neg (Bool.eq_false_iff.1 hz))
  | jnz addr =>
    cases hz : flagAt s.flags 1 with
    | true => exact .inl (if_neg (Bool.eq_false_iff.1 (congrArg not hz)))
    | false => exact .inr (.inl ⟨addr, if_pos (congrArg not hz), .inr ⟨rfl, rfl⟩⟩)
  | hold addr hin => exact .inr (.inr ⟨addr, rfl, hin, rfl⟩)
  | arith hraw => cases hraw <;> exact .inl rfl
  | _ => exact .inl rfl

end

/-- Settles O21: the three places `pc` can go. -/
theorem onlyJumpsTransferControl : Obligations.OnlyJumpsTransferControl := by
  intro i s t h
  refine (exec_pc_cases h).imp_left fun hpc => ?_
  rw [hpc]
  exact pc_add_toNat s (lengthOf i)

/-! ## What an instruction does not depend on -/

/-- From another `pc` the same effect leads to a state that differs in `pc` at most (R12). -/
theorem Executes.withPc {s t : State} {i : Instr} (h : Executes s i t) (p : Byte) :
    ∃ p', Executes { s with pc := p } i { t with pc := p' } := by
  cases h with
  | arith hraw => cases hraw <;> exact ⟨_, .arith (by constructor)⟩
  | ldBad addr h1 h2 => exact ⟨_, .ldBad addr h1 h2⟩
  | divZero hb => exact ⟨_, .divZero hb⟩
  | div hb => exact ⟨_, .div hb⟩
  | hold addr hin => exact ⟨_, .hold addr hin⟩
  | inp addr hin => exact ⟨_, .inp addr hin⟩
  | _ => exact ⟨_, by constructor⟩

/-- Settles O22: every effect is the same from another `pc`. -/
theorem programCounterIsNotData : Obligations.ProgramCounterIsNotData := by
  intro i s t p h
  obtain ⟨p', hp'⟩ := (exec_eq_next_iff.1 h).withPc p
  exact ⟨_, exec_eq_next_iff.2 hp', rfl⟩

/-- No instruction reads RUNNING, and HLT alone writes it (R17). -/
theorem Executes.withRunning {s t : State} {i : Instr} (h : Executes s i t) (hi : i ≠ .hlt) (r : Bool) :
    Executes { s with running := r } i { t with running := r } := by
  cases h with
  | hlt => exact absurd rfl hi
  | arith hraw => cases hraw <;> exact .arith (by constructor)
  | ldBad addr h1 h2 => exact .ldBad addr h1 h2
  | divZero hb => exact .divZero hb
  | div hb => exact .div hb
  | hold addr hin => exact .hold addr hin
  | inp addr hin => exact .inp addr hin
  | _ => constructor

end Sys2Proof.Machine

/-! PROOFS. The invariant of a run, at reset, after every step and after every move of the host (spec/10_state.md sections 4, 5 and 8,
spec/70_reset_and_hazards.md sections 1 and 2). -/

namespace Sys2Proof.Machine

/-! ## Every step keeps the invariant -/

/-- Every instruction keeps memory in its canonical form. -/
theorem exec_keeps_wf {i : Instr} {s t : State} (h : exec i s = .next t) (hm : s.mem.wf = true) : t.mem.wf = true := by
  rcases exec_mem_cases h with hmem | ⟨addr, v, -, hmem⟩ <;> rw [hmem]
  · exact hm
  · exact wf_write addr v hm

/-- An instruction executed while RUNNING is true and FAULT none keeps the invariant. -/
theorem exec_keeps_inv {i : Instr} {s t : State} (h : exec i s = .next t) (hlive : Live s) (hinv : Inv s) : Inv t := by
  obtain ⟨hrun, hnone⟩ := hlive
  obtain ⟨hfault, hloaded⟩ := exec_fault_loaded h
  exact ⟨exec_keeps_wf h hinv.memory, fun _ => hloaded.trans (hinv.run hrun),
    fun hsome => absurd (hfault.trans hnone) hsome⟩

/-- The state that a step stopped by a fault leaves: a faulted state itself, or the one the illegal opcode leaves. -/
theorem faultLeaves_cases {s left : State} (h : FaultLeaves (step s) left) :
    left = s ∨ (Live s ∧ left = faultedBy s (s.mem.read s.pc)) := by
  obtain ⟨op, addr, h⟩ := h
  rcases step_cases s with ⟨_, _, _, h'⟩ | ⟨_, _, h'⟩ | ⟨_, _, i, _, _, h'⟩ | ⟨hnone, hrun, _, h'⟩
  · cases h'.symm.trans h
    exact .inl rfl
  · cases h'.symm.trans h
  · obtain ⟨t, ht⟩ := exec_next i s
    cases (h'.trans ht).symm.trans h
  · cases h'.symm.trans h
    exact .inr ⟨⟨hrun, hnone⟩, rfl⟩

/-- The state an illegal opcode leaves meets the invariant, since RUNNING stays true (30_encoding.md R78). -/
theorem faultedBy_keeps_inv {s : State} (op : Byte) (hlive : Live s) (hinv : Inv s) : Inv (faultedBy s op) :=
  ⟨hinv.memory, hinv.run, fun _ => hlive.1⟩

/-- Settles O38: a step keeps the state, executes an instruction, or leaves a faulted state. -/
theorem everyStepKeepsTheInvariant : Obligations.EveryStepKeepsTheInvariant := by
  refine fun s hinv => ⟨fun t h => ?_, fun left h => ?_⟩
  · rcases step_next h with ⟨_, _, rfl⟩ | ⟨hnone, hrun, i, _, _, hexec⟩
    · exact hinv
    · exact exec_keeps_inv hexec ⟨hrun, hnone⟩ hinv
  · rcases faultLeaves_cases h with rfl | ⟨hlive, rfl⟩
    · exact hinv
    · exact faultedBy_keeps_inv _ hlive hinv

/-! ## Reset, the host and STATUS -/

/-- Settles O36: the fields of the reset state, and a step there makes no tick. -/
theorem resetLeavesTheSpecValues : Obligations.ResetLeavesTheSpecValues :=
  ⟨rfl, rfl, rfl, rfl, reset_memory.2, rfl, rfl, rfl, rfl, rfl, rfl, rfl, fun _ => step_next_of_not_running rfl⟩

/-- Settles O37: memory at reset is canonical, and RUNNING and FAULT are clear. -/
theorem resetMeetsTheInvariant : Obligations.ResetMeetsTheInvariant :=
  ⟨reset_memory.1, fun hrun => absurd hrun Bool.false_ne_true, fun hsome => absurd rfl hsome⟩

/-- Before a load RUNNING is false and FAULT none. -/
theorem not_running_of_notLoaded {s : State} (hinv : Inv s) (hload : s.loaded = .notLoaded) :
    s.running = false ∧ s.fault = none := by
  have hrun : s.running ≠ true := fun hrun => nomatch hload.symm.trans (hinv.run hrun)
  exact ⟨Bool.eq_false_iff.2 hrun, Classical.not_not.1 fun hsome => hrun (hinv.fault hsome)⟩

/-- Either outcome of the load keeps the invariant (R281). -/
theorem loadImage_keeps_inv {ps : Config.ProgSize} {image : List Byte} {s t : State} (hinv : Inv s)
    (h : loadImage ps image s = some t) : Inv t := by
  cases hload : s.loaded with
  | loaded => simp [loadImage, hload] at h
  | refused => simp [loadImage, hload] at h
  | notLoaded =>
    obtain ⟨hrun, hnone⟩ := not_running_of_notLoaded hinv hload
    rcases Nat.lt_or_ge ps.size image.length with hlong | hfits
    · cases (loadImage_of_lt hload hlong).symm.trans h
      exact ⟨hinv.memory, fun hrun' => absurd hrun' (Bool.eq_false_iff.1 hrun), hinv.fault⟩
    · cases (loadImage_of_le hload hfits).symm.trans h
      exact ⟨wf_writeMany 0 image hinv.memory, fun _ => rfl, fun _ => rfl⟩

/-- Settles O39: the load keeps the invariant, and an input value is no part of it. -/
theorem everyHostMoveKeepsTheInvariant : Obligations.EveryHostMoveKeepsTheInvariant := by
  intro ps mv s t hinv h
  cases mv with
  | load image => exact loadImage_keeps_inv hinv h
  | append v =>
    cases h
    exact ⟨hinv.memory, hinv.run, hinv.fault⟩

/-- STATUS in a loaded run (R284). -/
theorem statusOf_of_loaded {s : State} (hload : s.loaded = .loaded) :
    statusOf s = if s.fault.isSome then some .faulted else if s.running then some .running else some .halted := by
  simp only [statusOf, hload]

/-- Settles O43: FAULT decides first, and by the invariant a faulted core has RUNNING true. -/
theorem statusTellsTheRunState : Obligations.StatusTellsTheRunState := by
  intro s hinv hload
  rw [statusOf_of_loaded hload]
  cases hfault : s.fault with
  | some reason =>
    have hrun : s.running = true := hinv.fault (by simp [hfault])
    simp [hrun, hfault]
  | none => cases hrun : s.running <;> simp [Live, hrun, hfault]

/-! ## Canonical memories -/

/-- The first listed byte is read at its address. -/
theorem read_head {k : Nat} (v : Byte) (rest : Memory) (hk : k < 256) :
    Memory.read ((k, v) :: rest) (BitVec.ofNat 8 k) = v := by
  have haddr : (BitVec.ofNat 8 k).toNat = k := (BitVec.toNat_ofNat k 8).trans (Nat.mod_eq_of_lt hk)
  simp [Memory.read, haddr]

/-- A memory that reads the same as one whose first cell is at `k` lists a cell at or below `k`, since the byte there is not what an
unlisted address reads as. -/
theorem le_of_read_eq_cons {m rest : Memory} {lo k : Nat} {v : Byte} (hm : m.wfFrom lo = true)
    (hm' : Memory.wfFrom 0 ((k, v) :: rest) = true) (h : ∀ x, m.read x = Memory.read ((k, v) :: rest) x) : lo ≤ k := by
  obtain ⟨-, hk, hv, -⟩ := wfFrom_cons.1 hm'
  by_contra hlt
  have haddr : (BitVec.ofNat 8 k).toNat < lo := by rw [BitVec.toNat_ofNat, Nat.mod_eq_of_lt hk]; omega
  exact hv ((read_head v rest hk).symm.trans ((h _).symm.trans (read_below hm haddr)))

/-- Memories with the same first cell that read the same have rests that read the same. -/
theorem read_rest_eq {r r' : Memory} {k : Nat} {v : Byte} (hr : r.wfFrom (k + 1) = true) (hr' : r'.wfFrom (k + 1) = true)
    (h : ∀ x, Memory.read ((k, v) :: r) x = Memory.read ((k, v) :: r') x) (x : Byte) : r.read x = r'.read x := by
  by_cases hx : k = x.toNat
  · rw [read_below hr (by omega), read_below hr' (by omega)]
  · simpa [Memory.read, hx] using h x

/-- Settles O40, by induction on one list: the first cells are at the same address, hold the same byte, and the rests read the same. -/
theorem equalReadsAreEqualMemories : Obligations.EqualReadsAreEqualMemories := by
  intro m
  induction m with
  | nil =>
    intro m' _ hm' h
    cases m' with
    | nil => rfl
    | cons c' r' => exact absurd (le_of_read_eq_cons (lo := c'.1 + 1) rfl hm' h) (Nat.not_succ_le_self _)
  | cons c r ih =>
    intro m' hm hm' h
    cases m' with
    | nil => exact absurd (le_of_read_eq_cons (lo := c.1 + 1) rfl hm fun x => (h x).symm) (Nat.not_succ_le_self _)
    | cons c' r' =>
      obtain ⟨k, v⟩ := c
      obtain ⟨k', v'⟩ := c'
      obtain ⟨-, hk, hv, hr⟩ := wfFrom_cons.1 hm
      obtain ⟨-, hk', hv', hr'⟩ := wfFrom_cons.1 hm'
      have hle : k ≤ k' := le_of_read_eq_cons (wfFrom_cons.2 ⟨le_refl k, hk, hv, hr⟩) hm' h
      have hge : k' ≤ k := le_of_read_eq_cons (wfFrom_cons.2 ⟨le_refl k', hk', hv', hr'⟩) hm fun x => (h x).symm
      obtain rfl := Nat.le_antisymm hle hge
      obtain rfl : v = v' := (read_head v r hk).symm.trans ((h _).trans (read_head v' r' hk))
      have hwf {q : Memory} (hq : q.wfFrom (k + 1) = true) : q.wf = true := wfFrom_mono (Nat.zero_le _) hq
      rw [ih r' (hwf hr) (hwf hr') (read_rest_eq hr hr' h)]

end Sys2Proof.Machine

/-! PROOFS. The outcomes of a tick and of a step, and which instruction a change goes back to (spec/00_scope.md R8, spec/10_state.md,
spec/40_tick_and_dispatch.md R100 to R106). -/

namespace Sys2Proof.Machine

/-! ## What a tick decodes -/

/-- The code a tick decodes depends on memory and `pc` alone. -/
theorem fetchDecode_congr (opc : Mnemonic → Byte) {s u : State} (hmem : u.mem = s.mem) (hpc : u.pc = s.pc) :
    fetchDecode opc u = fetchDecode opc s := by
  simp only [fetchDecode, codeWindow_eq, hmem, hpc]

/-- The byte at `pc` is the opcode of the instruction decoded there (30_encoding.md R76). -/
theorem opcode_of_fetchDecode {opc : Mnemonic → Byte} {s : State} {i : Instr} {rest : List Byte}
    (hdec : fetchDecode opc s = .ok i rest) : opc (mnemonicOf i) = s.mem.read s.pc := by
  have hbytes := decodedBytesAreTheEncoding opc i _ rest hdec
  rw [codeWindow_eq] at hbytes
  exact (List.cons.inj hbytes).1.symm

/-- In memory, where no operand is missing, only a byte that is no opcode is rejected (30_encoding.md R78). -/
theorem fetchDecode_bad_iff {opc : Mnemonic → Byte} {s : State} :
    (∃ e, fetchDecode opc s = .bad e) ↔ ∀ m, opc m ≠ s.mem.read s.pc := by
  rw [← found_none_iff, fetchDecode, codeWindow_eq]
  cases hfound : mnemonicWith opc (s.mem.read s.pc) with
  | none => simp [decodeWith_of_not_found hfound]
  | some m =>
    obtain ⟨i, rest, hok⟩ := takeOperands_two m (s.mem.read (s.pc + 1)) (s.mem.read (s.pc + 2))
    rw [decodeWith_of_found hfound, hok]
    simp

/-- Settles O26: the three bytes are the window a tick decodes. -/
theorem stepRunsTheDecodedInstruction : Obligations.StepRunsTheDecodedInstruction := by
  intro s i rest hlive _ hdec
  refine tickIfEnabled_of_decoded (rest := rest) hlive ?_
  rw [fetchDecode, codeWindow_eq]
  exact hdec

/-! ## The outcomes of a tick (R8) -/

/-- A tick is a next state when it executes an instruction that does not wait for input (R100). -/
theorem tick_next_iff {opc : Mnemonic → Byte} {s t : State} :
    tick opc s = .next t ↔
      ∃ i rest, fetchDecode opc s = .ok i rest ∧ waitsForInput i s = false ∧ exec i s = .next t := by
  constructor
  · intro h
    rcases tick_cases opc s with ⟨_, _, _, _, h'⟩ | ⟨i, rest, u, hdec, hwait, hexec, h'⟩ | ⟨_, h'⟩ <;>
      cases h'.symm.trans h
    exact ⟨i, rest, hdec, hwait, hexec⟩
  · rintro ⟨i, rest, hdec, hwait, hexec⟩
    simp [tick, hdec, hwait, hexec, madeTick]

/-- A tick is a hold when it decodes an INP and In is empty (44_io.md R172). -/
theorem tick_hold_iff {opc : Mnemonic → Byte} {s : State} :
    tick opc s = .hold ↔ ∃ addr rest, fetchDecode opc s = .ok (.inp addr) rest ∧ s.input = [] := by
  constructor
  · intro h
    rcases tick_cases opc s with ⟨addr, rest, hdec, hin, _⟩ | ⟨_, _, _, _, _, _, h'⟩ | ⟨_, h'⟩
    · exact ⟨addr, rest, hdec, hin⟩
    · cases h'.symm.trans h
    · cases h'.symm.trans h
  · rintro ⟨addr, rest, hdec, hin⟩
    simp [tick, hdec, waitsForInput, hin]

/-- A tick is a fault when it decodes nothing (30_encoding.md R78). -/
theorem tick_fault_iff {opc : Mnemonic → Byte} {s : State} :
    (∃ reason, tick opc s = .fault reason) ↔ ∃ e, fetchDecode opc s = .bad e := by
  rcases tick_cases opc s with ⟨_, _, hdec, _, ht⟩ | ⟨_, _, _, hdec, _, _, ht⟩ | ⟨⟨_, hdec⟩, ht⟩ <;> simp [hdec, ht]

/-- A tick of this model is never refused. -/
theorem tick_ne_refused (opc : Mnemonic → Byte) (s : State) (why : Refusal) : tick opc s ≠ .refused why := by
  rcases tick_cases opc s with ⟨_, _, _, _, ht⟩ | ⟨_, _, _, _, _, _, ht⟩ | ⟨_, ht⟩ <;> simp [ht]

/-- While the run goes on a tick is enabled unless it holds (R100). -/
theorem canTick_iff_of_live {s : State} (hlive : Live s) : CanTick s ↔ tick opcodeOf s ≠ .hold := by
  simp [canTick_iff, hlive.1, hlive.2]

/-- A hold, read off the byte at `pc`. -/
theorem tick_hold_iff_opcode {s : State} :
    tick opcodeOf s = .hold ↔ s.mem.read s.pc = opcodeOf .inp ∧ s.input = [] := by
  rw [tick_hold_iff]
  constructor
  · rintro ⟨addr, rest, hdec, hin⟩
    exact ⟨(opcode_of_fetchDecode hdec).symm, hin⟩
  · rintro ⟨hop, hin⟩
    exact ⟨_, _, fetchDecode_of_bytes (i := .inp _) opcodeOf_injective hop rfl, hin⟩

/-- A next state, read off the byte at `pc`: it is an opcode and the tick does not hold. -/
theorem exists_tick_next_iff_opcode {s : State} :
    (∃ t, tick opcodeOf s = .next t) ↔ tick opcodeOf s ≠ .hold ∧ ∃ m, opcodeOf m = s.mem.read s.pc := by
  constructor
  · rintro ⟨t, h⟩
    obtain ⟨i, rest, hdec, -, -⟩ := tick_next_iff.1 h
    exact ⟨by simp [h], mnemonicOf i, opcode_of_fetchDecode hdec⟩
  · rintro ⟨hhold, m, hm⟩
    rcases tick_cases opcodeOf s with ⟨_, _, _, _, h⟩ | ⟨_, _, t, _, _, _, h⟩ | ⟨hbad, _⟩
    · exact absurd h hhold
    · exact ⟨t, h⟩
    · exact absurd hm (fetchDecode_bad_iff.1 hbad m)

/-! ## The outcomes of a step -/

/-- While the run goes on, a step shows its tick (R100; log 12). -/
theorem step_of_live {s : State} (hlive : Live s) : step s = stepOutcome s (tick opcodeOf s) := by
  simp [step, tickIfEnabled, hlive.1, hlive.2]

/-- While the run goes on, a step to a next state executes the decoded instruction (R103). -/
theorem step_next_iff_of_live {s t : State} (hlive : Live s) :
    step s = .next t ↔ ∃ i rest, fetchDecode opcodeOf s = .ok i rest ∧ exec i s = .next t := by
  constructor
  · intro h
    rcases step_next h with ⟨_, hstop, _⟩ | ⟨_, _, hexec⟩
    · cases hstop.symm.trans hlive.1
    · exact hexec
  · rintro ⟨i, rest, hdec, hexec⟩
    exact (tickIfEnabled_of_decoded hlive hdec).trans hexec

/-- While the run goes on, a step answers a next state when the byte at `pc` is an opcode (log 12). -/
theorem exists_step_next_iff_opcode {s : State} (hlive : Live s) :
    (∃ t, step s = .next t) ↔ ∃ m, opcodeOf m = s.mem.read s.pc := by
  constructor
  · rintro ⟨t, h⟩
    obtain ⟨i, rest, hdec, -⟩ := (step_next_iff_of_live hlive).1 h
    exact ⟨mnemonicOf i, opcode_of_fetchDecode hdec⟩
  · rintro ⟨m, hm⟩
    cases hdec : fetchDecode opcodeOf s with
    | bad e => exact absurd hm (fetchDecode_bad_iff.1 ⟨e, hdec⟩ m)
    | ok i rest =>
      obtain ⟨t, hexec⟩ := exec_next i s
      exact ⟨t, (step_next_iff_of_live hlive).2 ⟨i, rest, hdec, hexec⟩⟩

/-- Settles O30: the three outcomes of a tick, each read off the byte at `pc` and In. -/
theorem everyOpcodeRuns : Obligations.EveryOpcodeRuns := by
  intro s hlive
  have hcan := canTick_iff_of_live hlive
  have hhold : ¬CanTick s ↔ tick opcodeOf s = .hold := hcan.not.trans Classical.not_not
  exact ⟨exists_tick_next_iff_opcode.trans (and_congr_left' hcan.symm), hhold.symm, hhold.trans tick_hold_iff_opcode,
    tick_fault_iff.trans fetchDecode_bad_iff, tick_ne_refused opcodeOf s, exists_step_next_iff_opcode hlive⟩

/-- Settles O29: nothing is decoded, the step is the fault of the byte at `pc`, and the state it leaves has FAULT set. -/
theorem illegalOpcodeFaultsForGood : Obligations.IllegalOpcodeFaultsForGood := by
  intro s hlive hillegal
  obtain ⟨e, hbad⟩ := fetchDecode_bad_iff.2 hillegal
  have hfault : step s = .fault (.illegalOpcode (s.mem.read s.pc) s.pc (faultedBy s (s.mem.read s.pc))) := by
    rw [step_of_live hlive]
    rcases tick_cases opcodeOf s with ⟨_, _, hdec, _⟩ | ⟨_, _, _, hdec, _⟩ | ⟨_, ht⟩
    · cases hbad.symm.trans hdec
    · cases hbad.symm.trans hdec
    · rw [ht]
      rfl
  exact ⟨_, hfault, rfl, pc_add_toNat s 1, hlive.1, rfl, rfl, fun _ _ => rfl, fun _ => rfl, ⟨rfl, rfl, rfl, rfl⟩,
    fun hload => statusOf_of_loaded hload, rfl⟩

/-! ## What keeps the state (R106) -/

/-- A taken jump to itself leaves the state. -/
theorem jumpIf_pc_self {taken : Bool} (s : State) (h : taken = true) : jumpIf taken s.pc s = s := by
  rw [jumpIf_eq, if_pos h]

/-- An instruction keeps the whole state when it is a taken jump to itself or an INP that finds In empty. -/
theorem exec_eq_self_iff {i : Instr} {s : State} :
    exec i s = .next s ↔
      (i = .jez s.pc ∧ flagAt s.flags 1 = true) ∨ (i = .jnz s.pc ∧ flagAt s.flags 1 = false) ∨
        ∃ addr, i = .inp addr ∧ s.input = [] := by
  constructor
  · intro h
    have hlen := lengthOf_le i
    rcases exec_pc_cases h with hpc | ⟨addr, rfl, hjez | hjnz⟩ | ⟨addr, hi, hin, -⟩
    · exact absurd hpc.symm (add_ofNat_ne_self s.pc (by simp only [lengthOf]; omega) (by simp only [maxLength] at hlen; omega))
    · exact .inl hjez
    · exact .inr (.inl hjnz)
    · exact .inr (.inr ⟨addr, hi, hin⟩)
  · rintro (⟨rfl, hz⟩ | ⟨rfl, hz⟩ | ⟨addr, rfl, hin⟩)
    · exact congrArg Host.Outcome.next (jumpIf_pc_self s hz)
    · exact congrArg Host.Outcome.next (jumpIf_pc_self s (congrArg not hz))
    · exact exec_inp_of_nil addr hin

/-- Settles O31: a tick or a step keeps the state when the instruction it executes does; the tick of an INP that finds In empty
executes none. -/
theorem onlySelfJumpOrHoldKeepsTheState : Obligations.OnlySelfJumpOrHoldKeepsTheState := by
  intro s hlive
  rw [tick_next_iff, step_next_iff_of_live hlive]
  constructor <;> constructor
  · rintro ⟨i, rest, hdec, hwait, hexec⟩
    rcases exec_eq_self_iff.1 hexec with ⟨rfl, hz⟩ | ⟨rfl, hz⟩ | ⟨addr, rfl, hin⟩
    · exact ⟨rest, .inl ⟨hdec, hz⟩⟩
    · exact ⟨rest, .inr ⟨hdec, hz⟩⟩
    · simp [waitsForInput, hin] at hwait
  · rintro ⟨rest, ⟨hdec, hz⟩ | ⟨hdec, hz⟩⟩
    · exact ⟨_, rest, hdec, rfl, exec_eq_self_iff.2 (.inl ⟨rfl, hz⟩)⟩
    · exact ⟨_, rest, hdec, rfl, exec_eq_self_iff.2 (.inr (.inl ⟨rfl, hz⟩))⟩
  · rintro ⟨i, rest, hdec, hexec⟩
    rcases exec_eq_self_iff.1 hexec with ⟨rfl, hz⟩ | ⟨rfl, hz⟩ | ⟨addr, rfl, hin⟩
    · exact ⟨rest, .inl ⟨hdec, hz⟩⟩
    · exact ⟨rest, .inr (.inl ⟨hdec, hz⟩)⟩
    · exact ⟨rest, .inr (.inr ⟨addr, hdec, hin⟩)⟩
  · rintro ⟨rest, ⟨hdec, hz⟩ | ⟨hdec, hz⟩ | ⟨addr, hdec, hin⟩⟩
    · exact ⟨_, rest, hdec, exec_eq_self_iff.2 (.inl ⟨rfl, hz⟩)⟩
    · exact ⟨_, rest, hdec, exec_eq_self_iff.2 (.inr (.inl ⟨rfl, hz⟩))⟩
    · exact ⟨_, rest, hdec, exec_eq_self_iff.2 (.inr (.inr ⟨addr, rfl, hin⟩))⟩

/-! ## Which instruction a change goes back to -/

/-- A step that changes the state executed the decoded instruction. -/
theorem exec_of_step_ne {s t : State} (h : step s = .next t) (hne : t ≠ s) :
    ∃ i rest, fetchDecode opcodeOf s = .ok i rest ∧ exec i s = .next t := by
  rcases step_next h with ⟨_, _, heq⟩ | ⟨_, _, hexec⟩
  · exact absurd heq hne
  · exact hexec

/-- Settles O32: a step that changes A or B executed an instruction that writes it. -/
theorem registersHaveOnlyTheirWriters : Obligations.RegistersHaveOnlyTheirWriters := by
  refine fun s t h => ⟨fun hne => ?_, fun hne => ?_⟩
  · obtain ⟨i, rest, hdec, hexec⟩ := exec_of_step_ne h (ne_of_apply_ne State.a hne)
    exact ⟨i, rest, hdec, exec_writer_of_a_ne hexec hne⟩
  · obtain ⟨i, rest, hdec, hexec⟩ := exec_of_step_ne h (ne_of_apply_ne State.b hne)
    exact ⟨i, rest, hdec, exec_writer_of_b_ne hexec hne⟩

/-- Settles O33: the one byte that STA or INP writes is the one that changed. -/
theorem memoryHasOnlyTwoWriters : Obligations.MemoryHasOnlyTwoWriters := by
  intro s t x h hne
  obtain ⟨i, rest, hdec, hexec⟩ := exec_of_step_ne h (ne_of_apply_ne (·.mem.read x) hne)
  rcases exec_mem_cases hexec with hmem | ⟨addr, v, hi, hmem⟩ <;> rw [hmem] at hne
  · exact absurd rfl hne
  · have haddr : addr = x := by
      by_contra hother
      exact hne (read_write_other s.mem v (Ne.symm hother))
    rcases hi with rfl | rfl
    · exact ⟨addr, rest, haddr, .inl hdec⟩
    · exact ⟨addr, rest, haddr, .inr hdec⟩

/-- A step that changes a bit of FLAGS executed ADD, SUB or MUL (bits 1 and 2) or DIV (bit 3) (R14; decisions D7 to D9). -/
theorem step_writer_of_flagAt_ne {s t : State} {k : Nat} (h : step s = .next t)
    (hne : flagAt t.flags k ≠ flagAt s.flags k) :
    ∃ i rest, fetchDecode opcodeOf s = .ok i rest ∧
      (((k = 1 ∨ k = 2) ∧ (i = .add ∨ i = .sub ∨ i = .mul)) ∨ (k = 3 ∧ i = .div)) := by
  obtain ⟨i, rest, hdec, hexec⟩ := exec_of_step_ne h (ne_of_apply_ne (fun u => flagAt u.flags k) hne)
  exact ⟨i, rest, hdec, exec_writer_of_flagAt_ne hexec hne⟩

/-- A jump goes by FLAGS and not by A (70_reset_and_hazards.md section 3). -/
theorem jumpIf_pc_withA (taken : Bool) (addr v : Byte) (s : State) :
    (jumpIf taken addr { s with a := v }).pc = (jumpIf taken addr s).pc := by
  rw [jumpIf_eq, jumpIf_eq]

/-- Settles O34: bit 1 is written by ADD, SUB and MUL, and a jump's `pc` is computed from FLAGS. -/
theorem zeroFlagIsTheLastArithmetic : Obligations.ZeroFlagIsTheLastArithmetic := by
  refine ⟨fun s t h hne => ?_, fun addr v s t t' => ⟨fun h h' => ?_, fun h h' => ?_⟩⟩
  · obtain ⟨i, rest, hdec, ⟨_, hi⟩ | ⟨hk, _⟩⟩ := step_writer_of_flagAt_ne h hne
    · exact ⟨i, rest, hdec, hi⟩
    · cases hk
  · cases h
    cases h'
    exact jumpIf_pc_withA (getFlag s.flags .z) addr v s
  · cases h
    cases h'
    exact jumpIf_pc_withA (!getFlag s.flags .z) addr v s

/-- Settles O35: the writers of bits 2 and 3, and that no instruction writes the others. -/
theorem flagBitsHaveOnlyTheirWriters : Obligations.FlagBitsHaveOnlyTheirWriters := by
  refine fun s t h => ⟨fun k hk => ?_, fun hne => ?_, fun hne => ?_⟩
  · by_contra hne
    obtain ⟨_, _, _, ⟨hk', _⟩ | ⟨hk', _⟩⟩ := step_writer_of_flagAt_ne h hne
    · simp only [List.mem_cons] at hk; omega
    · simp only [List.mem_cons] at hk; omega
  · obtain ⟨i, rest, hdec, ⟨_, hi⟩ | ⟨hk, _⟩⟩ := step_writer_of_flagAt_ne h hne
    · exact ⟨i, rest, hdec, hi⟩
    · cases hk
  · obtain ⟨i, rest, hdec, ⟨hk, _⟩ | ⟨_, rfl⟩⟩ := step_writer_of_flagAt_ne h hne
    · omega
    · exact ⟨rest, hdec⟩

/-! ## RUNNING -/

/-- A step that clears RUNNING executed HLT (R17). -/
theorem hlt_of_step_clears_running {s t : State} (h : step s = .next t) (hrun : s.running = true)
    (hstop : t.running = false) : ∃ rest, fetchDecode opcodeOf s = .ok .hlt rest := by
  have hne : t.running ≠ s.running := by simp [hrun, hstop]
  obtain ⟨i, rest, hdec, hexec⟩ := exec_of_step_ne h (ne_of_apply_ne State.running hne)
  obtain rfl : i = .hlt := by
    by_contra hi
    exact hne (exec_running hexec hi)
  exact ⟨rest, hdec⟩

/-- Settles O24: RUNNING in ticks, steps, faults, the load and the instructions. -/
theorem runningIsClearedOnlyByHlt : Obligations.RunningIsClearedOnlyByHlt := by
  refine ⟨fun s h => ((canTick_iff opcodeOf s).1 h).1, fun s => step_of_live, fun s t h hstop => ?_,
    fun s t => hlt_of_step_clears_running, fun s left h => ?_, fun ps image t h hlen => ?_, fun i s t r h hi => ?_,
    fun s t r h => ?_⟩
  · exact step_next_of_not_running hstop h
  · rcases faultLeaves_cases h with rfl | ⟨_, rfl⟩ <;> rfl
  · cases (loadImage_of_le rfl hlen).symm.trans h
    rfl
  · exact exec_eq_next_iff.2 ((exec_eq_next_iff.1 h).withRunning hi r)
  · cases h
    rfl

end Sys2Proof.Machine

/-! PROOFS. Input that arrives, holds, and runs that do not depend on when it arrives (spec/40_tick_and_dispatch.md R105, spec/44_io.md R172,
spec/70_reset_and_hazards.md sections 1 and 2). -/

namespace Sys2Proof.Machine

/-! ## A state with further input values -/

/-- The state after the host has appended the values `w`, one `appendInput` after another (R280). -/
def appendInputs (w : List Byte) (s : State) : State := { s with input := s.input ++ w }

/-- Appending one value first and the others later is appending them all. -/
theorem appendInputs_appendInput (v : Byte) (w : List Byte) (s : State) :
    appendInputs w (appendInput v s) = appendInputs (v :: w) s := by
  simp [appendInputs, appendInput]

/-- Appending no value leaves the state. -/
@[simp] theorem appendInputs_nil (s : State) : appendInputs [] s = s := by
  simp [appendInputs]

/-- Appended input is no code. -/
theorem fetchDecode_appendInputs (opc : Mnemonic → Byte) (w : List Byte) (s : State) :
    fetchDecode opc (appendInputs w s) = fetchDecode opc s :=
  fetchDecode_congr opc rfl rfl

/-- An instruction that does not wait for input does not wait with more of it either. -/
theorem not_waitsForInput_appendInputs {i : Instr} {s : State} (w : List Byte) (h : waitsForInput i s = false) :
    waitsForInput i (appendInputs w s) = false := by
  rw [Bool.eq_false_iff] at h ⊢
  rw [ne_eq, waitsForInput_iff] at h ⊢
  rintro ⟨hinp, hin⟩
  exact h ⟨hinp, (List.append_eq_nil_iff.1 hin).1⟩

/-- An effect that is no hold does not depend on later input, which stays behind in In (44_io.md R171). -/
theorem Executes.withInputs {s t : State} {i : Instr} (h : Executes s i t) (hwait : waitsForInput i s = false)
    (w : List Byte) : Executes (appendInputs w s) i (appendInputs w t) := by
  cases h with
  | arith hraw => cases hraw <;> exact .arith (by constructor)
  | ldBad addr h1 h2 => exact .ldBad addr h1 h2
  | divZero hb => exact .divZero hb
  | div hb => exact .div hb
  | hold addr hin => simp [waitsForInput, hin] at hwait
  | @inp addr v rest hin =>
    have hin' : (appendInputs w s).input = v :: (rest ++ w) := congrArg (· ++ w) hin
    exact .inp addr hin'
  | _ => constructor

/-- An instruction that does not wait for input does the same with later input (R105). -/
theorem exec_appendInputs {i : Instr} {s t : State} (w : List Byte) (hwait : waitsForInput i s = false)
    (h : exec i s = .next t) : exec i (appendInputs w s) = .next (appendInputs w t) :=
  exec_eq_next_iff.2 ((exec_eq_next_iff.1 h).withInputs hwait w)

/-! ## The hold of an INP (R172) -/

/-- Settles O18: the tick holds while In is empty; the appended value is then at the head of In, and the tick executes the INP. -/
theorem inpHoldsUntilInputArrives : Obligations.InpHoldsUntilInputArrives := by
  intro addr v s hm hin
  have hin' : (appendInput v s).input = v :: [] := by rw [appendInput_input, hin]; rfl
  have hexec := exec_inp_of_cons addr hin'
  have hread := read_write_same addr v hm
  have hpc := pc_add_toNat s 2
  refine ⟨exec_inp_of_nil addr hin, ⟨_, hexec, hread, rfl, hpc⟩, fun rest hlive hdec => ?_⟩
  have hhold : tick opcodeOf s = .hold := tick_hold_iff.2 ⟨addr, rest, hdec, hin⟩
  have hdec' : fetchDecode opcodeOf (appendInput v s) = .ok (.inp addr) rest := (fetchDecode_congr opcodeOf rfl rfl).trans hdec
  have hwait : waitsForInput (.inp addr) (appendInput v s) = false := by simp [waitsForInput]
  have hnext := tick_next_iff.2 ⟨_, rest, hdec', hwait, hexec⟩
  refine ⟨hhold, fun hcan => (canTick_iff_of_live hlive).1 hcan hhold, ?_, ?_, _, hnext, hread, rfl, hpc⟩
  · rw [step_of_live hlive, hhold]
    rfl
  · exact (canTick_iff_of_live (s := appendInput v s) hlive).2 (by simp [hnext])

/-! ## Steps and arrivals (R105) -/

/-- A step with later input appended is the same step, unless it is one that keeps the state (logs 12 and 14). -/
theorem step_appendInputs {s t : State} (w : List Byte) (h : step s = .next t) :
    t = s ∨ step (appendInputs w s) = .next (appendInputs w t) := by
  rcases step_next h with ⟨_, _, heq⟩ | ⟨hnone, hrun, i, rest, hdec, hexec⟩
  · exact .inl heq
  · cases hwait : waitsForInput i s with
    | true =>
      obtain ⟨⟨addr, rfl⟩, hin⟩ := (waitsForInput_iff i s).1 hwait
      cases (exec_inp_of_nil addr hin).symm.trans hexec
      exact .inl rfl
    | false =>
      have hlive : Live (appendInputs w s) := ⟨hrun, hnone⟩
      exact .inr ((step_next_iff_of_live hlive).2
        ⟨i, rest, (fetchDecode_appendInputs opcodeOf w s).trans hdec, exec_appendInputs w hwait hexec⟩)

/-- A run of events that begins with a step makes that step. -/
theorem runEvents_tick {es : List Event} {s u : State} (h : runEvents (.tick :: es) s = some u) :
    ∃ t, step s = .next t ∧ runEvents es t = some u := by
  simp only [runEvents] at h
  split at h
  · next t hstep => exact ⟨t, hstep, h⟩
  · cases h
  · cases h

/-- The host's run makes one step and goes on. -/
theorem core_run_succ {s t : State} (k : Nat) (h : step s = .next t) :
    Sys2Proof.core.run (k + 1) s = Sys2Proof.core.run k t := by
  have hcore : Sys2Proof.core.step s = .next t := h
  simp only [Host.Core.run, hcore]

/-- Settles O19, by induction on the events: an arrival is among the values present from the start, and a step either keeps the state
and is left out, or is made with the later values appended. -/
theorem arrivalTimesAreUnobservable : Obligations.ArrivalTimesAreUnobservable := by
  show ∀ (es : List Event) (s u : State), runEvents es s = some u →
    ∃ k, k ≤ tickCount es ∧ Sys2Proof.core.run k (appendInputs (arrivals es) s) = .next u
  intro es
  induction es with
  | nil =>
    intro s u h
    cases h
    exact ⟨0, le_refl 0, congrArg Host.Outcome.next (appendInputs_nil s)⟩
  | cons e es ih =>
    intro s u h
    cases e with
    | arrive v =>
      obtain ⟨k, hk, hrun⟩ := ih (appendInput v s) u h
      exact ⟨k, hk, appendInputs_appendInput v (arrivals es) s ▸ hrun⟩
    | tick =>
      obtain ⟨t, hstep, hrest⟩ := runEvents_tick h
      obtain ⟨k, hk, hrun⟩ := ih t u hrest
      rcases step_appendInputs (arrivals es) hstep with rfl | hstep'
      · exact ⟨k, Nat.le_succ_of_le hk, hrun⟩
      · exact ⟨k + 1, Nat.succ_le_succ hk, (core_run_succ k hstep').trans hrun⟩

/-! ## Ticks and arrivals (R105) -/

/-- A run of ticks that begins with a tick makes that tick, which is enabled. -/
theorem runTicks_tick_iff {es : List Event} {s u : State} :
    runTicks (.tick :: es) s = some u ↔ ∃ t, CanTick s ∧ tick opcodeOf s = .next t ∧ runTicks es t = some u := by
  cases hcan : canTick opcodeOf s with
  | false => simp [runTicks, CanTick, hcan]
  | true => cases htick : tick opcodeOf s <;> simp [runTicks, CanTick, hcan, htick]

/-- A tick that is made is the same tick with later input appended, and is enabled there too (R105). -/
theorem tick_appendInputs {s t : State} (w : List Byte) (hcan : CanTick s) (h : tick opcodeOf s = .next t) :
    CanTick (appendInputs w s) ∧ tick opcodeOf (appendInputs w s) = .next (appendInputs w t) := by
  obtain ⟨hrun, hnone, -⟩ := (canTick_iff opcodeOf s).1 hcan
  obtain ⟨i, rest, hdec, hwait, hexec⟩ := tick_next_iff.1 h
  have hnext : tick opcodeOf (appendInputs w s) = .next (appendInputs w t) :=
    tick_next_iff.2 ⟨i, rest, (fetchDecode_appendInputs opcodeOf w s).trans hdec,
      not_waitsForInput_appendInputs w hwait, exec_appendInputs w hwait hexec⟩
  exact ⟨(canTick_iff opcodeOf _).2 ⟨hrun, hnone, by simp [hnext]⟩, hnext⟩

/-- Ticks that are made, interleaved with arrivals, are as many ticks with every value present from the start (R105). -/
theorem runTicks_replicate {es : List Event} {s u : State} (h : runTicks es s = some u) :
    runTicks (List.replicate (tickCount es) .tick) (appendInputs (arrivals es) s) = some u := by
  induction es generalizing s with
  | nil =>
    cases h
    exact congrArg some (appendInputs_nil _)
  | cons e es ih =>
    cases e with
    | arrive v => exact appendInputs_appendInput v (arrivals es) s ▸ ih h
    | tick =>
      obtain ⟨t, hcan, htick, hrest⟩ := runTicks_tick_iff.1 h
      obtain ⟨hcan', htick'⟩ := tick_appendInputs (arrivals es) hcan htick
      exact runTicks_tick_iff.2 ⟨_, hcan', htick', ih hrest⟩

/-- Settles O60: two interleavings with as many ticks and the same values have the same run with all values present at the start. -/
theorem ticksDoNotDependOnArrivalTimes : Obligations.TicksDoNotDependOnArrivalTimes := by
  refine ⟨fun es s t => runTicks_replicate, fun es es' s t t' hcount harrivals h h' => ?_⟩
  have hrun := runTicks_replicate h
  rw [hcount, harrivals] at hrun
  exact Option.some.inj (hrun.symm.trans (runTicks_replicate h'))

/-! ## A refused load (R281) -/

/-- Once RUNNING is false no step changes anything, and only In grows, by the values that arrive (log 14). -/
theorem runEvents_of_not_running {es : List Event} {s u : State} (hstop : s.running = false)
    (h : runEvents es s = some u) : u = appendInputs (arrivals es) s := by
  induction es generalizing s with
  | nil =>
    cases h
    exact (appendInputs_nil _).symm
  | cons e es ih =>
    cases e with
    | arrive v => exact (ih (s := appendInput v s) hstop h).trans (appendInputs_appendInput v (arrivals es) s)
    | tick =>
      obtain ⟨t, hstep, hrest⟩ := runEvents_tick h
      obtain rfl := step_next_of_not_running hstop hstep
      exact ih hstop hrest

/-- Before a load and after a refused one a step answers the state it was given (log 14). -/
theorem step_of_not_running {s : State} (hstop : s.running = false) (hnone : s.fault = none) : step s = .next s := by
  simp [step, tickIfEnabled, hstop, hnone]

/-- Settles O42: only the load's result is written, so RUNNING stays false and no tick follows. -/
theorem loadThatDoesNotFitIsRefused : Obligations.LoadThatDoesNotFitIsRefused := by
  intro ps image s hinv hload hlong
  obtain ⟨hstop, hnone⟩ := not_running_of_notLoaded hinv hload
  exact ⟨_, loadImage_of_lt hload hlong, fun _ => rfl, rfl, rfl, rfl, rfl, ⟨rfl, rfl, rfl, rfl⟩, hstop, hnone, rfl,
    step_of_not_running hstop hnone, fun _ _ => runEvents_of_not_running hstop, fun _ _ => rfl⟩

end Sys2Proof.Machine
